-- ==== Sys2Proof/Word.lean ====
section
/-! DEFINITION. The widths of this hardware: bytes, window offsets, 32- and 64-bit patterns (00_scope.md section 5). -/

namespace Sys2Proof

/-- A byte, the addressable unit of the register window (R41). -/
abbrev Byte := BitVec 8
/-- A 16-bit host word (R46). -/
abbrev Word16 := BitVec 16
/-- A 32-bit operand or result (R24). -/
abbrev Word32 := BitVec 32
/-- A 64-bit register value (R21 to R23). -/
abbrev Word64 := BitVec 64
/-- A byte offset 0x00 to 0x1F in the register window (R41). -/
abbrev Offset := BitVec 5

end Sys2Proof
end

