-- ==== Sys2Proof/Config.lean ====
section
/-! DEFINITION. The open parameters of the spec and the free values. None has a body: no proof can see a value. -/

namespace Sys2Proof

/-- FREE VALUE (log entry 2). The n-th `unspecified_64`: what RES receives from a shift by 64 or
more (R85) or a modulo by zero (R124). -/
opaque Config.freeValue : Nat → Word64

/-- FREE VALUE (log entry 8). The byte the platform answers for the half of a 16-bit read at offset
0x1F that lies outside the window (R47). -/
opaque Config.platformByte : Nat → Byte

/-- Sign bit of `FDIV_NAN` (R143, log entry 6). -/
opaque Config.fdivNanSign : BitVec 1

/-- The mantissa field of `FDIV_NAN`, less one: every mantissa field but 0 is a possible value
(R141, R143, log entry 6). -/
opaque Config.fdivNanPayload : Fin 8388607

/-- `CORE_BASE`: where the window sits in the host's address space (R50, log entry 7). -/
opaque Config.coreBase : Nat

end Sys2Proof
end

