-- ==== Sys2Proof/Syntax.lean ====
section
/-! DEFINITION. The fourteen commands of spec/opcode_table.json (R2, R62). -/

namespace Sys2Proof

/-- One constructor per defined command. A command carries no operand field: its operands are the
registers R24 names (R64). -/
inductive Instr where
  | shl64 | shrLogical64 | shrArith64
  | mulTrunc32 | mulTrunc64
  | divU32 | divU64 | divS32 | divS64
  | modU32 | modU64 | modS32 | modS64
  | fdiv32
  deriving DecidableEq, Repr

end Sys2Proof
end

