-- ==== Sys2Proof/WellFormed.lean ====
section
/-! DEFINITION. Which command bytes are well formed, from the field rules R60 and R63 (not from the table R62). -/

namespace Sys2Proof

/-- Field ENG, bits 7:6 (R60). -/
def commandEng (c : Byte) : BitVec 2 := c.extractLsb' 6 2
/-- Field Z, bits 5:3, which must be 000 (R60). -/
def commandZ (c : Byte) : BitVec 3 := c.extractLsb' 3 3
/-- Field FN, bits 2:0 (R60). -/
def commandFn (c : Byte) : BitVec 3 := c.extractLsb' 0 3

/-- The check of FN within an engine (R63). Shift: FN[2] = 0 and FN[1:0] is not 11. Multiply:
FN[2:1] = 00. Division/Modulo: every value. Float Division: FN = 000. -/
def fnWellFormed (eng : BitVec 2) (fn : BitVec 3) : Bool :=
  if eng = 0 then !fn.getLsbD 2 && !(fn.getLsbD 1 && fn.getLsbD 0)
  else if eng = 1 then !fn.getLsbD 2 && !fn.getLsbD 1
  else if eng = 2 then true
  else fn == 0

/-- A command byte is well formed when Z is 000 and FN is legal for its engine (R60, R63). -/
def commandWellFormed (c : Byte) : Bool :=
  commandZ c == 0 && fnWellFormed (commandEng c) (commandFn c)

end Sys2Proof
end

