-- ==== Sys2Proof/Decode.lean ====
section
/-! DEFINITION. The decoder of command bytes and the encoder (R60 to R63). -/

namespace Sys2Proof

/-- Why bytes are no command. -/
inductive DecodeError where
  /-- There is no byte. -/
  | noCommand
  /-- One of the 242 bytes of R66. -/
  | reservedCommand (c : Byte)
  deriving DecidableEq, Repr

/-- What a decoder answers: an instruction and the bytes after it, or a rejection by name. -/
inductive Decoded (α : Type) where
  | ok (a : α)
  | rejected (e : DecodeError)
  deriving DecidableEq, Repr

/-- A row of the opcode map: the command is `instr` when the byte agrees with `pattern` on `mask`. -/
structure OpcodeRow where
  mask : Byte
  pattern : Byte
  instr : Instr
  deriving DecidableEq, Repr

/-- The opcode map of R62; the mask is 0xFF for every row. -/
def opcodeTable : List OpcodeRow :=
  [⟨0xFF, 0x00, .shl64⟩, ⟨0xFF, 0x01, .shrLogical64⟩, ⟨0xFF, 0x02, .shrArith64⟩] ++
  [⟨0xFF, 0x40, .mulTrunc32⟩, ⟨0xFF, 0x41, .mulTrunc64⟩] ++
  [⟨0xFF, 0x80, .divU32⟩, ⟨0xFF, 0x81, .divU64⟩, ⟨0xFF, 0x82, .divS32⟩, ⟨0xFF, 0x83, .divS64⟩] ++
  [⟨0xFF, 0x84, .modU32⟩, ⟨0xFF, 0x85, .modU64⟩, ⟨0xFF, 0x86, .modS32⟩, ⟨0xFF, 0x87, .modS64⟩] ++
  [⟨0xFF, 0xC0, .fdiv32⟩]

/-- Decoding depends on the byte alone (R61). -/
def decodeByte (c : Byte) : Decoded Instr :=
  match opcodeTable.find? (fun r => c &&& r.mask == r.pattern) with
  | some r => .ok r.instr
  | none => .rejected (.reservedCommand c)

/-- Decoding of a list of bytes: a command is its first byte (R60: one length, no prefixes). -/
def decode : List Byte → Decoded (Instr × List Byte)
  | [] => .rejected .noCommand
  | c :: rest =>
    match decodeByte c with
    | .ok i => .ok (i, rest)
    | .rejected e => .rejected e

/-- Engine and function fields of each command, from the columns ENG and FN of R62. -/
def commandFields : Instr → BitVec 2 × BitVec 3
  | .shl64 => (0b00, 0b000)
  | .shrLogical64 => (0b00, 0b001)
  | .shrArith64 => (0b00, 0b010)
  | .mulTrunc32 => (0b01, 0b000)
  | .mulTrunc64 => (0b01, 0b001)
  | .divU32 => (0b10, 0b000)
  | .divU64 => (0b10, 0b001)
  | .divS32 => (0b10, 0b010)
  | .divS64 => (0b10, 0b011)
  | .modU32 => (0b10, 0b100)
  | .modU64 => (0b10, 0b101)
  | .modS32 => (0b10, 0b110)
  | .modS64 => (0b10, 0b111)
  | .fdiv32 => (0b11, 0b000)

/-- The command byte: ENG, then Z = 000, then FN (R60). -/
def encodeByte (i : Instr) : Byte :=
  (commandFields i).1 ++ (0b000 : BitVec 3) ++ (commandFields i).2

/-- The bytes of a command (R60: one). -/
def encode (i : Instr) : List Byte := [encodeByte i]

/-- The first bits of an instruction, numbered as spec/opcode_table.json numbers them, laid out as
bytes; bits from `nbits` up are 0, and there is at least one byte. -/
def commandBytes (nbits w : Nat) : List Byte :=
  (List.range (max 1 ((nbits + 7) / 8))).map
    (fun k => BitVec.ofNat 8 (w % 2 ^ nbits / 256 ^ k))

/-- The instruction this decoder reads from an instruction whose bits are `w`. -/
def decodeTableWord (nbits w : Nat) : Option Instr :=
  match decode (commandBytes nbits w) with
  | .ok (i, []) => some i
  | _ => none

end Sys2Proof
end

