-- ==== Sys2Proof/Machine/State.lean ====
section
/-! DEFINITION. The state of the CORE, the host's side as plain data, the reasons to stop, and reset. -/

namespace Sys2Proof.Machine

/-- What the outside world does to the CORE, one action at a time (R20, R51). -/
inductive HostAction where
  /-- `rd8 off`: `MemRead(off, 1)` (R44, R69). -/
  | rd8 (off : Offset)
  /-- `rd16 off`: `MemRead(off, 2)`, two byte reads, lower offset first (R46, R69). -/
  | rd16 (off : Offset)
  /-- `wr8 off, v`: `MemWrite(off, 1, v)` (R45, R69). -/
  | wr8 (off : Offset) (v : Byte)
  /-- `wr16 off, v`: `MemWrite(off, 2, v)`, two byte writes, lower offset first (R46, R69). -/
  | wr16 (off : Offset) (v : Word16)
  /-- `rd8 src` and then `wr8 dst` with the byte read: one line of `mvra64` and `mvrb64` (R70). -/
  | copy (src dst : Offset)
  /-- The platform resets the CORE (R180). -/
  | reset
  deriving DecidableEq, Repr

/-- The whole state. `opa`, `opb`, `res` are the CORE's registers (R21 to R23); bit `i` of a `Held`
field says that byte `i` of the register holds a value (R33). CMD stores nothing (R27), so it has no
field. The last three fields are the model's own (log entries 2 and 3). -/
structure State where
  /-- OPA, x[0] (R21). -/
  opa : Word64
  /-- OPB, x[1] (R22). -/
  opb : Word64
  /-- RES, x[2] (R23). -/
  res : Word64
  /-- Which bytes of OPA hold a value (R33). -/
  opaHeld : BitVec 8
  /-- Which bytes of OPB hold a value (R33). -/
  opbHeld : BitVec 8
  /-- Which bytes of RES hold a value (R33). -/
  resHeld : BitVec 8
  /-- MODEL's own: how many free values have been taken (log entry 2). -/
  draws : Nat
  /-- MODEL's own: the host's actions not yet performed, oldest first (R25, R51, log entry 3). -/
  pending : List HostAction
  /-- MODEL's own: the bytes the host has read, newest first (R44, log entry 3). -/
  received : List Byte
  deriving DecidableEq, Repr

/-- The set of exception causes is empty (R160): no step raises a fault, so there is no constructor. -/
inductive Fault where
  deriving DecidableEq, Repr

/-- Why an instruction has no meaning. -/
inductive Refusal where
  /-- Raised only by an arm of `exec` whose instruction has no meaning yet. Safe: the model stops where
  the hardware goes on. No arm raises it now. -/
  | notModelled (mnemonic : String)
  deriving DecidableEq, Repr

/-- One of the three outcomes of a step of this machine. -/
abbrev Result := Host.Outcome State Fault Refusal

/-- The machine right after reset: no byte holds a value and nothing is in progress (R32, R180).
DESIGN CHOICE, unsafe: the registers, whose contents the spec leaves unspecified, read as 0 (log entry 1). -/
def State.reset : State where
  opa := 0
  opb := 0
  res := 0
  opaHeld := 0
  opbHeld := 0
  resHeld := 0
  draws := 0
  pending := []
  received := []

end Sys2Proof.Machine
end

