-- ==== Sys2Proof/Machine/Ops.lean ====
section
/-! DEFINITION. The named operations over the registers and the register window (R41 to R45), and reset (R180).
The CORE has no exceptions and no traps (R160, R164), so there is no exception entry and no return here. -/

namespace Sys2Proof.Machine

/-- OPA receives `v`, with `held` saying which of its bytes hold a value. -/
def State.putOpa (v : Word64) (held : BitVec 8) (s : State) : State := { s with opa := v, opaHeld := held }
/-- OPB receives `v`. -/
def State.putOpb (v : Word64) (held : BitVec 8) (s : State) : State := { s with opb := v, opbHeld := held }
/-- RES receives `v`. -/
def State.putRes (v : Word64) (held : BitVec 8) (s : State) : State := { s with res := v, resHeld := held }
/-- One more free value has been taken. -/
def State.drawn (s : State) : State := { s with draws := s.draws + 1 }
/-- The host's remaining actions are `p`. -/
def State.withPending (p : List HostAction) (s : State) : State := { s with pending := p }
/-- The host has read the byte `b`. -/
def State.receive (b : Byte) (s : State) : State := { s with received := b :: s.received }

/-- Byte `i` of a register, bits 8i+7 to 8i (R42). -/
def byteOf (v : Word64) (i : Nat) : Byte := v.extractLsb' (8 * i) 8

/-- Byte `i` of a register replaced (R45). -/
def setByte (v : Word64) (i : Nat) (b : Byte) : Word64 :=
  (v &&& ~~~((0xFF : Word64) <<< (8 * i))) ||| (b.setWidth 64 <<< (8 * i))

/-- The mark that byte `i` holds a value (R33). -/
def heldMark (i : Nat) : BitVec 8 := 1#8 <<< i

/-- `MemRead(off, 1)` (R44); CMD and the reserved offsets read as 0x00 (R27, R41). -/
def memRead8 (off : Offset) (s : State) : Byte :=
  if off.toNat ≤ 0x07 then byteOf s.opa off.toNat
  else if off.toNat ≤ 0x0F then byteOf s.opb (off.toNat - 8)
  else if off.toNat ≤ 0x17 then byteOf s.res (off.toNat - 16)
  else 0x00

/-- `MemWrite(off, 1, v)` but for offset 0x18, whose write performs a command (R45; see
`performWrite8`). A written register byte holds a value (R33); a reserved offset ignores the write. -/
def memWrite8 (off : Offset) (v : Byte) (s : State) : State :=
  if off.toNat ≤ 0x07 then
    s.putOpa (setByte s.opa off.toNat v) (s.opaHeld ||| heldMark off.toNat)
  else if off.toNat ≤ 0x0F then
    s.putOpb (setByte s.opb (off.toNat - 8) v) (s.opbHeld ||| heldMark (off.toNat - 8))
  else if off.toNat ≤ 0x17 then
    s.putRes (setByte s.res (off.toNat - 16) v) (s.resHeld ||| heldMark (off.toNat - 16))
  else s

/-- Whether a host read of the byte at `off` has a defined result: a register byte does when it holds a
value (R33); CMD and the reserved offsets always do (R44). -/
def byteHeld (off : Offset) (s : State) : Bool :=
  if off.toNat ≤ 0x07 then s.opaHeld.getLsbD off.toNat
  else if off.toNat ≤ 0x0F then s.opbHeld.getLsbD (off.toNat - 8)
  else if off.toNat ≤ 0x17 then s.resHeld.getLsbD (off.toNat - 16)
  else true

/-- The offset of CMD (R41). -/
def cmdOffset : Offset := 0x18

/-- The window offset a host address reaches: `CORE_BASE + k` is offset `k` for k in 0 to 31, and no other
address reaches the CORE (R50). -/
def windowOffset (addr : Nat) : Option Offset :=
  if Config.coreBase ≤ addr ∧ addr < Config.coreBase + 32 then
    some (BitVec.ofNat 5 (addr - Config.coreBase))
  else none

/-- The platform's reset (R180): OPA, OPB and RES as right after reset; the host's own data stays. -/
def State.resetCore (s : State) : State :=
  ((s.putOpa State.reset.opa State.reset.opaHeld).putOpb State.reset.opb State.reset.opbHeld).putRes
    State.reset.res State.reset.resHeld

end Sys2Proof.Machine
end

