-- ==== Sys2Proof/Machine/Operands.lean ====
section
/-! DEFINITION. Where a command's operands are and how its result reaches RES (R21 to R24, R33, R61). The CORE has no
flags (R26), so no command computes one and there is no Machine/Flags.lean. -/

namespace Sys2Proof.Machine

/-- The three operand shapes of R24. -/
inductive OperandUse where
  /-- OPA[63:0] and OPB[7:0]: the shifts. -/
  | shift
  /-- OPA[31:0] and OPB[31:0]; the result is zero-extended. -/
  | narrow
  /-- OPA[63:0] and OPB[63:0]. -/
  | wide
  deriving DecidableEq, Repr

/-- The operand shape of each command (R24). -/
def operandUse : Instr → OperandUse
  | .shl64 | .shrLogical64 | .shrArith64 => .shift
  | .mulTrunc32 | .divU32 | .divS32 | .modU32 | .modS32 | .fdiv32 => .narrow
  | .mulTrunc64 | .divU64 | .divS64 | .modU64 | .modS64 => .wide

/-- The bytes of OPA a command reads (R24, R33). -/
def bytesReadA : OperandUse → BitVec 8
  | .shift => 0xFF
  | .narrow => 0x0F
  | .wide => 0xFF

/-- The bytes of OPB a command reads (R24, R33). -/
def bytesReadB : OperandUse → BitVec 8
  | .shift => 0x01
  | .narrow => 0x0F
  | .wide => 0xFF

/-- Whether every operand byte the command reads holds a value (R33). -/
def operandsHeld (u : OperandUse) (s : State) : Bool :=
  s.opaHeld &&& bytesReadA u == bytesReadA u && s.opbHeld &&& bytesReadB u == bytesReadB u

/-- OPA[31:0] of a 64-bit register value, or OPB[31:0] (R21, R22). -/
def lowHalf (v : Word64) : Word32 := v.setWidth 32

/-- The shift amount OPB[7:0] (R22). -/
def shiftCount (b : Word64) : Byte := b.setWidth 8

/-- A 32-bit result in RES: zero-extended, also when it is signed (R23). -/
def zext64 (r : Option Word32) : Option Word64 := r.map (·.setWidth 64)

/-- The end of a command: RES is written once, OPA and OPB are not (R23, R61). `some v` is a result the
spec gives; then every byte of RES holds a value, provided every operand byte read did (R33, log entry 9).
`none` is `unspecified_64` (R85, R124): RES receives a free value and holds no value (log entries 2 and 9). -/
def State.complete (u : OperandUse) (r : Option Word64) (s : State) : State :=
  match r with
  | some v => s.putRes v (if operandsHeld u s then 0xFF else 0x00)
  | none => (s.putRes (Config.freeValue s.draws) 0x00).drawn

end Sys2Proof.Machine
end

