-- ==== Sys2Proof/Machine/DivMod.lean ====
section
/-! DEFINITION. The Division/Modulo Engine: quotients and remainders, unsigned and signed, 32 and 64 bits (R110 to R124). -/

namespace Sys2Proof.Machine

/-- `udiv_N(a, b)`: the truncated quotient, all ones for a zero divisor (R113, R114). -/
def udivN {w : Nat} (a b : BitVec w) : BitVec w :=
  if b = 0 then BitVec.allOnes w else BitVec.ofNat w (a.toNat / b.toNat)

/-- `neg_N(v)`: two's-complement negation (00_scope.md section 5). -/
def negN {w : Nat} (v : BitVec w) : BitVec w := ~~~v + 1

/-- `mag_N(v)`: the magnitude of `v` read as two's complement, as an unsigned value (R115). -/
def magN {w : Nat} (v : BitVec w) : BitVec w := if v.msb then negN v else v

/-- The signed quotient: the unsigned quotient of the magnitudes, negated when the signs differ; a zero
divisor is not checked (R116 to R118). -/
def sdivN {w : Nat} (a b : BitVec w) : BitVec w :=
  if a.msb ^^ b.msb then negN (udivN (magN a) (magN b)) else udivN (magN a) (magN b)

/-- The unsigned remainder; none defined for a zero divisor (R119, R120, R124). -/
def umodN {w : Nat} (a b : BitVec w) : Option (BitVec w) :=
  if b = 0 then none else some (BitVec.ofNat w (a.toNat % b.toNat))

/-- The signed remainder: the unsigned remainder of the magnitudes with the dividend's sign; none defined
for a zero divisor (R122 to R124). -/
def smodN {w : Nat} (a b : BitVec w) : Option (BitVec w) :=
  (umodN (magN a) (magN b)).map (fun r => if a.msb then negN r else r)

/-- div_u32, command 0x80 (R113). -/
def execDivU32 (s : State) : Result :=
  .next (s.complete .narrow (zext64 (some (udivN (lowHalf s.opa) (lowHalf s.opb)))))
/-- div_u64, command 0x81 (R114). -/
def execDivU64 (s : State) : Result := .next (s.complete .wide (some (udivN s.opa s.opb)))
/-- div_s32, command 0x82 (R117). -/
def execDivS32 (s : State) : Result :=
  .next (s.complete .narrow (zext64 (some (sdivN (lowHalf s.opa) (lowHalf s.opb)))))
/-- div_s64, command 0x83 (R118). -/
def execDivS64 (s : State) : Result := .next (s.complete .wide (some (sdivN s.opa s.opb)))
/-- mod_u32, command 0x84 (R119); a zero divisor leaves RES unspecified (R124, log entry 4). -/
def execModU32 (s : State) : Result :=
  .next (s.complete .narrow (zext64 (umodN (lowHalf s.opa) (lowHalf s.opb))))
/-- mod_u64, command 0x85 (R120); a zero divisor leaves RES unspecified (R124, log entry 4). -/
def execModU64 (s : State) : Result := .next (s.complete .wide (umodN s.opa s.opb))
/-- mod_s32, command 0x86 (R122); a zero divisor leaves RES unspecified (R124, log entry 4). -/
def execModS32 (s : State) : Result :=
  .next (s.complete .narrow (zext64 (smodN (lowHalf s.opa) (lowHalf s.opb))))
/-- mod_s64, command 0x87 (R123); a zero divisor leaves RES unspecified (R124, log entry 4). -/
def execModS64 (s : State) : Result := .next (s.complete .wide (smodN s.opa s.opb))

end Sys2Proof.Machine
end

