-- ==== Sys2Proof/Machine/FloatDiv.lean ====
section
/-! DEFINITION. The Float Division Engine: fdiv32 (R140 to R150). -/

namespace Sys2Proof.Machine

/-- `S(v)`, bit 31 (R140). -/
def floatSign (v : Word32) : BitVec 1 := v.extractLsb' 31 1
/-- `E(v)`, bits 30:23 (R140). -/
def floatExp (v : Word32) : BitVec 8 := v.extractLsb' 23 8
/-- `F(v)`, bits 22:0 (R140). -/
def floatFrac (v : Word32) : BitVec 23 := v.extractLsb' 0 23
/-- `M(v)`, the 24-bit mantissa with the implicit leading bit, whatever the exponent field (R140, R144). -/
def floatMant (v : Word32) : Nat := 0x800000 + (floatFrac v).toNat
/-- `PACK(s, e, f)` (R140). -/
def floatPack (s : BitVec 1) (e : BitVec 8) (f : BitVec 23) : Word32 := s ++ e ++ f

/-- NaN: exponent field 0xFF and mantissa field not 0 (R141). -/
def isNaN (v : Word32) : Bool := floatExp v == 0xFF && floatFrac v != 0
/-- Denormal: exponent field 0 and mantissa field not 0 (R141). -/
def isDenormal (v : Word32) : Bool := floatExp v == 0 && floatFrac v != 0
/-- Normal: exponent field 1 to 254 (R141). -/
def isNormal (v : Word32) : Bool := floatExp v != 0 && floatExp v != 0xFF

/-- `+ZERO` (R141). -/
def plusZero : Word32 := floatPack 0 0 0
/-- `+INF` or `-INF`, by the sign (R141). -/
def floatInf (s : BitVec 1) : Word32 := floatPack s 0xFF 0
/-- `FDIV_NAN`: one fixed pattern, a NaN, otherwise open (R143, log entry 6). -/
def fdivNan : Word32 :=
  floatPack Config.fdivNanSign 0xFF (BitVec.ofNat 23 (Config.fdivNanPayload.val + 1))

/-- `FDIV_BIAS_ADJ` (R145). -/
def fdivBiasAdj : Int := 126
/-- `FDIV_EMIN` (R146). -/
def fdivEMin : Int := 1
/-- `FDIV_EMAX` (R146). -/
def fdivEMax : Int := 255

/-- The pre-check's result, for a divisor whose exponent field is 0 (R143). -/
def fdivPrecheck (a : Word32) : Word32 :=
  if floatExp a = 0 then fdivNan
  else if isNaN a then fdivNan
  else if floatSign a = 0 then floatInf 0
  else floatInf 1

/-- The result exponent after step 4 (R142, R145). -/
def fdivExponent (a b : Word32) : Int :=
  ((floatExp a).toNat : Int) - ((floatExp b).toNat : Int) + fdivBiasAdj +
    (if floatMant a < floatMant b then 0 else 1)

/-- How many positions the quotient mask passes through: 25 from 0x1000000, 24 from 0x0800000 (R145, R147). -/
def fdivPasses (a b : Word32) : Nat := if floatMant a < floatMant b then 25 else 24

/-- Step 7 (R147): with `k` mask positions left (mask 2^(k-1)), the remaining dividend mantissa `ma` and
the quotient `q`; answers both after the mask has reached zero. -/
def fdivLoop (mb : Nat) : Nat → Nat → Nat → Nat × Nat
  | 0, ma, q => (ma, q)
  | k + 1, ma, q =>
    if mb ≤ ma then fdivLoop mb k ((ma - mb) <<< 1) (q ||| 2 ^ k) else fdivLoop mb k (ma <<< 1) q

/-- The quotient after the round-up of step 8 (R147, R149). -/
def fdivQuotient (a b : Word32) : Nat :=
  let (rem, q) := fdivLoop (floatMant b) (fdivPasses a b) (floatMant a) 0
  if floatMant b ≤ rem then q + 1 else q

/-- `Exec(fdiv32, a, b)` (R142). -/
def fdiv32 (a b : Word32) : Word32 :=
  if floatExp b = 0 then fdivPrecheck a
  else if floatExp a = 0 then plusZero
  else
    let s := floatSign a ^^^ floatSign b
    let e := fdivExponent a b
    if e < fdivEMin then plusZero
    else if fdivEMax ≤ e then floatInf s
    else floatPack s (BitVec.ofInt 8 e) (BitVec.ofNat 23 (fdivQuotient a b))

/-- fdiv32, command 0xC0 (R142). -/
def execFdiv32 (s : State) : Result :=
  .next (s.complete .narrow (zext64 (some (fdiv32 (lowHalf s.opa) (lowHalf s.opb)))))

end Sys2Proof.Machine
end

