-- ==== Sys2Proof/Machine/Multiply.lean ====
section
/-! DEFINITION. The Multiply Engine: mul_trunc32, mul_trunc64 (R100 to R102). -/

namespace Sys2Proof.Machine

/-- `wrap_N(a * b)`: the low N bits of the product (R101, R102). -/
def mulTrunc {w : Nat} (a b : BitVec w) : BitVec w := BitVec.ofNat w (a.toNat * b.toNat)

/-- mul_trunc32, command 0x40 (R101). -/
def execMulTrunc32 (s : State) : Result :=
  .next (s.complete .narrow (zext64 (some (mulTrunc (lowHalf s.opa) (lowHalf s.opb)))))
/-- mul_trunc64, command 0x41 (R102). -/
def execMulTrunc64 (s : State) : Result := .next (s.complete .wide (some (mulTrunc s.opa s.opb)))

end Sys2Proof.Machine
end

