-- ==== Sys2Proof/Machine/Shift.lean ====
section
/-! DEFINITION. The Shift Engine: shl64, shr_logical64, shr_arith64 (R80 to R85). -/

namespace Sys2Proof.Machine

/-- A shift's result for counts 0 to 63; larger counts have no defined result (R85). -/
def shiftBy (f : Nat → Word64) (n : Byte) : Option Word64 :=
  if n.toNat < 64 then some (f n.toNat) else none

/-- `Exec(shl64, x, n)` (R82). -/
def shl64 (x : Word64) (n : Byte) : Option Word64 := shiftBy (fun k => x <<< k) n
/-- `Exec(shr_logical64, x, n)` (R83). -/
def shrLogical64 (x : Word64) (n : Byte) : Option Word64 := shiftBy (fun k => x >>> k) n
/-- `Exec(shr_arith64, x, n)` (R84). -/
def shrArith64 (x : Word64) (n : Byte) : Option Word64 := shiftBy (fun k => x.sshiftRight k) n

/-- shl64, command 0x00 (R82). -/
def execShl64 (s : State) : Result := .next (s.complete .shift (shl64 s.opa (shiftCount s.opb)))
/-- shr_logical64, command 0x01 (R83). -/
def execShrLogical64 (s : State) : Result :=
  .next (s.complete .shift (shrLogical64 s.opa (shiftCount s.opb)))
/-- shr_arith64, command 0x02 (R84). -/
def execShrArith64 (s : State) : Result :=
  .next (s.complete .shift (shrArith64 s.opa (shiftCount s.opb)))

end Sys2Proof.Machine
end

