-- ==== Sys2Proof/Machine/Dispatch.lean ====
section
/-! DEFINITION. The meaning of every command, one arm a constructor (R61). -/

namespace Sys2Proof.Machine

def exec (i : Instr) (s : State) : Host.Outcome State Fault Refusal :=
  match i with
  | .shl64 => Sys2Proof.Machine.execShl64 s
  | .shrLogical64 => Sys2Proof.Machine.execShrLogical64 s
  | .shrArith64 => Sys2Proof.Machine.execShrArith64 s
  | .mulTrunc32 => Sys2Proof.Machine.execMulTrunc32 s
  | .mulTrunc64 => Sys2Proof.Machine.execMulTrunc64 s
  | .divU32 => Sys2Proof.Machine.execDivU32 s
  | .divU64 => Sys2Proof.Machine.execDivU64 s
  | .divS32 => Sys2Proof.Machine.execDivS32 s
  | .divS64 => Sys2Proof.Machine.execDivS64 s
  | .modU32 => Sys2Proof.Machine.execModU32 s
  | .modU64 => Sys2Proof.Machine.execModU64 s
  | .modS32 => Sys2Proof.Machine.execModS32 s
  | .modS64 => Sys2Proof.Machine.execModS64 s
  | .fdiv32 => Sys2Proof.Machine.execFdiv32 s

end Sys2Proof.Machine
end

