-- ==== Sys2Proof/Machine/HostAccess.lean ====
section
/-! DEFINITION. What each action of the host does to the CORE (R44 to R49, R66, R180). -/

namespace Sys2Proof.Machine

/-- A write of `c` to CMD: the command `c` as one indivisible step (R48); a reserved byte is no operation
and the write completes (R66, log entry 5). -/
def performCommand (c : Byte) (s : State) : Result :=
  match decodeByte c with
  | .ok i => exec i s
  | .rejected _ => .next s

/-- `MemWrite(off, 1, v)` (R45). -/
def performWrite8 (off : Offset) (v : Byte) (s : State) : Result :=
  if off = cmdOffset then performCommand v s else .next (memWrite8 off v s)

/-- `MemRead(off, 1)`: the host receives the byte, and nothing else changes (R44, R49). -/
def performRead8 (off : Offset) (s : State) : State := s.receive (memRead8 off s)

/-- One action of the host, on the state whose `pending` holds the actions after it. A 16-bit access and a
copy are two byte accesses, each a step of its own (R46, R49): the first is performed now and the second
becomes the next pending action. At offset 0x1F the second byte of a 16-bit access is outside the window:
its write does nothing to the CORE, and its read answers a byte of the platform's (R47, log entry 8). -/
def perform (act : HostAction) (s : State) : Result :=
  match act with
  | .rd8 off => .next (performRead8 off s)
  | .rd16 off =>
    if off = 0x1F then .next (((performRead8 off s).receive (Config.platformByte s.draws)).drawn)
    else .next ((performRead8 off s).withPending (.rd8 (off + 1) :: s.pending))
  | .wr8 off v => performWrite8 off v s
  | .wr16 off v =>
    if off = 0x1F then performWrite8 off (v.extractLsb' 0 8) s
    else performWrite8 off (v.extractLsb' 0 8) (s.withPending (.wr8 (off + 1) (v.extractLsb' 8 8) :: s.pending))
  | .copy src dst => .next ((performRead8 src s).withPending (.wr8 dst (memRead8 src s) :: s.pending))
  | .reset => .next s.resetCore

end Sys2Proof.Machine
end

