-- ==== Sys2Proof/Machine/Step.lean ====
section
/-! DEFINITION. One step: the host's oldest pending action takes full effect (R20, R51). -/

namespace Sys2Proof.Machine

/-- One step. With no action pending the CORE is idle and nothing changes (R180, R25). -/
def step (s : State) : Host.Outcome State Fault Refusal :=
  match s.pending with
  | [] => .next s
  | act :: rest => perform act (s.withPending rest)

/-- The CORE fetches nothing (R25, R53): an instruction runs when the host writes its byte to CMD (R27). So
the host's next action becomes that write (log entry 3). -/
def State.withFetchWord (s : State) (nbits w : Nat) : State :=
  s.withPending ((commandBytes nbits w).map (HostAction.wr8 cmdOffset) ++ s.pending)

end Sys2Proof.Machine
end

