-- ==== Sys2Proof/Machine/Functional.lean ====
section
/-! DEFINITION. The functional layer: the result of each operation as a pure function of its operands (R5, R24). -/

namespace Sys2Proof.Machine

/-- `Exec(op, a, b)` with `a` in OPA and `b` in OPB, as the 64 bits RES receives; `none` where the spec
gives the operation no defined result (R85, R124). -/
def execValue (i : Instr) (a b : Word64) : Option Word64 :=
  match i with
  | .shl64 => shl64 a (shiftCount b)
  | .shrLogical64 => shrLogical64 a (shiftCount b)
  | .shrArith64 => shrArith64 a (shiftCount b)
  | .mulTrunc32 => zext64 (some (mulTrunc (lowHalf a) (lowHalf b)))
  | .mulTrunc64 => some (mulTrunc a b)
  | .divU32 => zext64 (some (udivN (lowHalf a) (lowHalf b)))
  | .divU64 => some (udivN a b)
  | .divS32 => zext64 (some (sdivN (lowHalf a) (lowHalf b)))
  | .divS64 => some (sdivN a b)
  | .modU32 => zext64 (umodN (lowHalf a) (lowHalf b))
  | .modU64 => umodN a b
  | .modS32 => zext64 (smodN (lowHalf a) (lowHalf b))
  | .modS64 => smodN a b
  | .fdiv32 => zext64 (some (fdiv32 (lowHalf a) (lowHalf b)))

/-- Whether the spec gives the command a result on the operands in place (R85, R124). -/
def resultDefined (i : Instr) (s : State) : Bool := (execValue i s.opa s.opb).isSome

/-- The operand bits of OPA that R24 names for an operation: all 64, or the low 32. -/
def operandBitsA (i : Instr) (a : Word64) : Word64 :=
  match operandUse i with
  | .shift | .wide => a
  | .narrow => (lowHalf a).setWidth 64

/-- The operand bits of OPB that R24 names for an operation: 64, the low 32, or the shift amount's 8. -/
def operandBitsB (i : Instr) (b : Word64) : Word64 :=
  match operandUse i with
  | .shift => (shiftCount b).setWidth 64
  | .narrow => (lowHalf b).setWidth 64
  | .wide => b

end Sys2Proof.Machine
end

