-- ==== Sys2Proof/Machine/Pseudo.lean ====
section
/-! DEFINITION. The host's syntax: commands, address-level accesses and pseudo-instructions, as lists of host actions
(R50, R68 to R70). They are not CORE state and not commands: the CORE sees their accesses only. -/

namespace Sys2Proof.Machine

/-- The mnemonic alone on a line: the byte write `MemWrite(0x18, 1, code)` (R68). -/
def command (i : Instr) : List HostAction := [.wr8 cmdOffset (encodeByte i)]

/-- Byte writes of bytes 0 to n-1 of `v` at the offsets from `base` up, offset rising. -/
def writeBytes (base n : Nat) (v : Word64) : List HostAction :=
  (List.range n).map (fun i => .wr8 (BitVec.ofNat 5 (base + i)) (byteOf v i))

/-- 16-bit writes of words 0 to n-1 of `v` at the even offsets from `base` up (R42, R70). -/
def writeWords (base n : Nat) (v : Word64) : List HostAction :=
  (List.range n).map (fun k => .wr16 (BitVec.ofNat 5 (base + 2 * k)) (v.extractLsb' (16 * k) 16))

/-- Byte reads at the n offsets from `base` up, offset rising. -/
def readBytes (base n : Nat) : List HostAction :=
  (List.range n).map (fun i => .rd8 (BitVec.ofNat 5 (base + i)))

/-- `lda64 v` (R70). -/
def lda64 (v : Word64) : List HostAction := writeBytes 0x00 8 v
/-- `lda32 v`: OPA bytes 4 to 7 untouched (R70). -/
def lda32 (v : Word32) : List HostAction := writeBytes 0x00 4 (v.setWidth 64)
/-- `ldb64 v` (R70). -/
def ldb64 (v : Word64) : List HostAction := writeBytes 0x08 8 v
/-- `ldb32 v`: OPB bytes 4 to 7 untouched (R70). -/
def ldb32 (v : Word32) : List HostAction := writeBytes 0x08 4 (v.setWidth 64)
/-- `ldcnt n`: the shift amount, OPB byte 0 (R70). -/
def ldcnt (n : Byte) : List HostAction := [.wr8 0x08 n]
/-- `rdr64` (R70). -/
def rdr64 : List HostAction := readBytes 0x10 8
/-- `rdr32` (R70). -/
def rdr32 : List HostAction := readBytes 0x10 4
/-- `mvra64`: RES copied to OPA through the host (R70). -/
def mvra64 : List HostAction :=
  (List.range 8).map (fun i => .copy (BitVec.ofNat 5 (0x10 + i)) (BitVec.ofNat 5 i))
/-- `mvrb64`: RES copied to OPB through the host (R70). -/
def mvrb64 : List HostAction :=
  (List.range 8).map (fun i => .copy (BitVec.ofNat 5 (0x10 + i)) (BitVec.ofNat 5 (0x08 + i)))

/-- `call m(a, b)`: load both operands, perform, read the result (R70, R182). -/
def call (i : Instr) (a b : Word64) : List HostAction :=
  match operandUse i with
  | .wide => lda64 a ++ ldb64 b ++ command i ++ rdr64
  | .shift => lda64 a ++ ldcnt (shiftCount b) ++ command i ++ rdr64
  | .narrow => lda32 (lowHalf a) ++ ldb32 (lowHalf b) ++ command i ++ rdr32

/-- How many bytes of RES hold an operation's result: 4 for a 32-bit operation, 8 for a 64-bit one (R182). -/
def resultBytes (i : Instr) : Nat :=
  match operandUse i with
  | .narrow => 4
  | .shift | .wide => 8

/-- A byte read at a host address: an access of the CORE only inside the window (R50). -/
def readAt (addr : Nat) : List HostAction := (windowOffset addr).toList.map .rd8

/-- A byte write at a host address: an access of the CORE only inside the window (R50). -/
def writeAt (addr : Nat) (v : Byte) : List HostAction :=
  (windowOffset addr).toList.map (fun off => .wr8 off v)

end Sys2Proof.Machine
end

