-- ==== Sys2Proof/Machine/Structure.lean ====
section
/-! DEFINITION. The engines' structures as the spec describes them (R81, R103, R111, R121). They are informative (R30, U14):
the meanings above compute the contracts, and obligations say that each structure computes its contract. -/

namespace Sys2Proof.Machine

/-- The shifter's operand as four 16-bit words, low to high (R81). -/
structure ShiftWords where
  w0 : Word16
  w1 : Word16
  w2 : Word16
  w3 : Word16
  deriving DecidableEq, Repr

/-- A 64-bit value viewed as four 16-bit words (R81). -/
def toShiftWords (x : Word64) : ShiftWords :=
  ⟨x.extractLsb' 0 16, x.extractLsb' 16 16, x.extractLsb' 32 16, x.extractLsb' 48 16⟩

/-- The result, w3 w2 w1 w0 from the top down (R81). -/
def ofShiftWords (w : ShiftWords) : Word64 := w.w3 ++ w.w2 ++ w.w1 ++ w.w0

/-- One coarse move to the left (R81). -/
def coarseLeft (w : ShiftWords) : ShiftWords := ⟨0, w.w0, w.w1, w.w2⟩
/-- One coarse move to the right, `fill` entering at the top (R81). -/
def coarseRight (fill : Word16) (w : ShiftWords) : ShiftWords := ⟨w.w1, w.w2, w.w3, fill⟩

/-- The fine phase to the left by `r` in 0 to 15: each word with the bits donated by the word below (R81). -/
def fineLeft (r : Nat) (w : ShiftWords) : ShiftWords :=
  ⟨w.w0 <<< r, (w.w1 <<< r) ||| (w.w0 >>> (16 - r)), (w.w2 <<< r) ||| (w.w1 >>> (16 - r)),
    (w.w3 <<< r) ||| (w.w2 >>> (16 - r))⟩
/-- The fine phase to the right by `r` in 0 to 15: each word with the bits donated by the word above (R81). -/
def fineRight (r : Nat) (fill : Word16) (w : ShiftWords) : ShiftWords :=
  ⟨(w.w0 >>> r) ||| (w.w1 <<< (16 - r)), (w.w1 >>> r) ||| (w.w2 <<< (16 - r)),
    (w.w2 >>> r) ||| (w.w3 <<< (16 - r)), (w.w3 >>> r) ||| (fill <<< (16 - r))⟩

/-- The two-phase left shift by `n` in 0 to 63 (R81). -/
def barrelLeft (x : Word64) (n : Nat) : Word64 :=
  ofShiftWords (fineLeft (n % 16) (Nat.repeat coarseLeft (n / 16) (toShiftWords x)))
/-- The two-phase right shift by `n` in 0 to 63 with a fill word (R81). -/
def barrelRight (fill : Word16) (x : Word64) (n : Nat) : Word64 :=
  ofShiftWords (fineRight (n % 16) fill (Nat.repeat (coarseRight fill) (n / 16) (toShiftWords x)))
/-- The fill word of `shr_arith64`, from the original sign bit (R81). -/
def signFill (x : Word64) : Word16 := if x.getLsbD 63 then 0xFFFF else 0x0000

/-- The three-product 32-bit multiplier, with the corrected third term (R103, C1). -/
def partialProducts32 (a b : Word32) : Word32 :=
  let al := (a.extractLsb' 0 16).toNat
  let ah := (a.extractLsb' 16 16).toNat
  let bl := (b.extractLsb' 0 16).toNat
  let bh := (b.extractLsb' 16 16).toNat
  BitVec.ofNat 16 (al * bh + ah * bl + (al * bl) / 2 ^ 16) ++ BitVec.ofNat 16 (al * bl)

/-- The byte-wise 64-bit multiplier: 36 byte products accumulated modulo 2^64 (R103). -/
def byteProducts64 (a b : Word64) : Word64 :=
  (List.range 8).foldl (fun acc i =>
    (List.range (8 - i)).foldl (fun acc j =>
      acc + BitVec.ofNat 64 ((byteOf a i).toNat * (byteOf b j).toNat * 2 ^ (8 * (i + j)))) acc) 0

/-- One step of restoring division on the dividend/quotient register and the remainder (R111, C7). -/
def restoringStep {w : Nat} (b : BitVec w) (dr : BitVec w × Nat) : BitVec w × Nat :=
  let rem := 2 * dr.2 + dr.1.msb.toNat
  if b.toNat ≤ rem then ((dr.1 <<< 1) ||| 1, rem - b.toNat) else (dr.1 <<< 1, rem)

/-- Restoring division: N steps; answers the quotient and the final remainder (R111). -/
def restoringDivide {w : Nat} (a b : BitVec w) : BitVec w × Nat :=
  Nat.repeat (restoringStep b) w (a, 0)

/-- The first loop of the 64-bit modulo: shift the divisor while `b << 1 ≤ a`, on the untruncated value,
counting; `fuel` bounds the shifts (R121, C2). -/
def alignDivisor (a : Nat) : Nat → Nat → Nat → Nat × Nat
  | 0, b, count => (b, count)
  | fuel + 1, b, count => if 2 * b ≤ a then alignDivisor a fuel (2 * b) (count + 1) else (b, count)

/-- The second loop of the 64-bit modulo: subtract the divisor where it fits and halve it (R121). -/
def subtractAndHalve : Nat → Nat → Nat → Nat
  | 0, a, _ => a
  | n + 1, a, b => subtractAndHalve n (if b ≤ a then a - b else a) (b / 2)

/-- `umod_64(a, b)` for `b ≠ 0` by normalised subtraction, at most 63 shifts (R121). -/
def normalisedMod (a b : Word64) : Nat :=
  let (b', count) := alignDivisor a.toNat 63 b.toNat 0
  subtractAndHalve (count + 1) a.toNat b'

end Sys2Proof.Machine
end

