-- ==== Sys2Proof/Machine/Termination.lean ====
section
/-! DEFINITION. For which inputs the spec supports a claim of termination (R190): where the operation's rule defines a
result. A modulo by zero and a shift by 64 or more have none, so no claim of termination may rest on them (R190, U4). -/

namespace Sys2Proof.Machine

/-- Whether R190 supports that the host's write of `c` to CMD completes: a defined command with a defined result on the
operands in place, or a reserved byte, whose write completes by R66. -/
def commandTerminates (c : Byte) (s : State) : Bool :=
  match decodeByte c with
  | .ok i => resultDefined i s
  | .rejected _ => true

/-- A byte write completes unless it performs a command R190 says nothing of. -/
def writeTerminates (off : Offset) (v : Byte) (s : State) : Bool :=
  off != cmdOffset || commandTerminates v s

/-- Whether the spec supports that the access a host action begins with completes. -/
def actionTerminates (act : HostAction) (s : State) : Bool :=
  match act with
  | .wr8 off v => writeTerminates off v s
  | .wr16 off v => writeTerminates off (v.extractLsb' 0 8) s
  | .rd8 _ | .rd16 _ | .copy _ _ | .reset => true

/-- The premise of every claim that a step completes (R190). -/
def stepTerminates (s : State) : Bool :=
  match s.pending with
  | [] => true
  | act :: _ => actionTerminates act s

/-- `p` holds before each of the next `n` steps. -/
def holdsAlong (p : State → Bool) : Nat → State → Prop
  | 0, _ => True
  | n + 1, s => p s = true ∧ ∀ t, step s = .next t → holdsAlong p n t

/-- The premise of every claim that the next `n` steps complete (R190). -/
abbrev runTerminates (n : Nat) (s : State) : Prop := holdsAlong stepTerminates n s

end Sys2Proof.Machine
end

