-- ==== Sys2Proof/Safety.lean ====
section
/-! DEFINITION. What the claims are stated in: frames, safe actions (software's obligations), the work left to do. -/

namespace Sys2Proof.Safety

open Sys2Proof.Machine

/-- A command changes RES and nothing else the host can reach: OPA, OPB and their marks, the host's own data and
every window byte outside RES are as before (R21, R22, R80, R100, R110). -/
def OnlyResChanged (s t : State) : Prop :=
  t.opa = s.opa ∧ t.opb = s.opb ∧ t.opaHeld = s.opaHeld ∧ t.opbHeld = s.opbHeld ∧
  t.pending = s.pending ∧ t.received = s.received ∧
  ∀ off : Offset, off.toNat < 0x10 ∨ 0x17 < off.toNat → memRead8 off t = memRead8 off s

/-- A command that ends with a result the spec gives: it answers a next state with `v` in RES, all eight bytes of
RES holding a value if the operand bytes read did (R33), no free value taken, and nothing else changed. From a state
whose operand bytes hold no value, that the command goes on is the model's choice (log entry 1). -/
def CompletesWith (i : Instr) (s : State) (v : Word64) : Prop :=
  ∃ t, exec i s = .next t ∧ t.res = v ∧ t.draws = s.draws ∧
    (operandsHeld (operandUse i) s = true → t.resHeld = 0xFF) ∧ OnlyResChanged s t

/-- A command that ends with `unspecified_64` in RES: it answers a next state whose RES is the next free value,
and nothing else changed (R85, R124, log entry 2). -/
def CompletesUnspecified (i : Instr) (s : State) : Prop :=
  ∃ t, exec i s = .next t ∧ t.res = Config.freeValue s.draws ∧ t.draws = s.draws + 1 ∧
    OnlyResChanged s t

/-- Software's obligations towards a command: a defined code (R66), written operand bytes (R181), a non-zero
divisor for a remainder (R183), a shift amount below 64 (R184). Termination needs less: `commandTerminates` (R190). -/
def commandSafe (c : Byte) (s : State) : Bool :=
  match decodeByte c with
  | .ok i => operandsHeld (operandUse i) s && resultDefined i s
  | .rejected _ => false

/-- A byte write is safe when it performs no command or a safe one. -/
def writeSafe (off : Offset) (v : Byte) (s : State) : Bool := off != cmdOffset || commandSafe v s

/-- The host's next action reads no byte without a value and performs no command outside software's obligations. -/
def stepSafe (s : State) : Bool :=
  match s.pending with
  | [] => true
  | .rd8 off :: _ => byteHeld off s
  | .rd16 off :: _ => byteHeld off s
  | .wr8 off v :: _ => writeSafe off v s
  | .wr16 off v :: _ => writeSafe off (v.extractLsb' 0 8) s
  | .copy src _ :: _ => byteHeld src s
  | .reset :: _ => true

/-- `n` steps of the machine, as the host's interface runs it. -/
def runSteps (n : Nat) (s : State) : Result := Host.Core.run Sys2Proof.core n s

/-- The next `n` steps are safe. -/
abbrev runSafe (n : Nat) (s : State) : Prop := holdsAlong stepSafe n s

/-- Two states that differ at most in the register bytes that hold no value (R33). -/
def AgreeOnHeld (s t : State) : Prop :=
  s.opaHeld = t.opaHeld ∧ s.opbHeld = t.opbHeld ∧ s.resHeld = t.resHeld ∧ s.draws = t.draws ∧
  s.pending = t.pending ∧ s.received = t.received ∧
  ∀ off : Offset, byteHeld off s = true → memRead8 off s = memRead8 off t

/-- Every byte of OPA and OPB that holds no value still reads as it did at reset (log entry 1). -/
def UnwrittenOperandsAsReset (s : State) : Prop :=
  ∀ off : Offset, off.toNat < 0x10 → byteHeld off s = false → memRead8 off s = memRead8 off State.reset

/-- How many steps an action takes: one for each access of the CORE (R46, R49). -/
def actionSteps : HostAction → Nat
  | .rd16 off => if off = 0x1F then 1 else 2
  | .wr16 off _ => if off = 0x1F then 1 else 2
  | .copy _ _ => 2
  | .rd8 _ | .wr8 _ _ | .reset => 1

/-- How many steps the pending actions take. -/
def stepsLeft (s : State) : Nat := (s.pending.map actionSteps).sum

/-- The reserved command bytes, as R66 lists them. -/
def ReservedByte (c : Byte) : Prop :=
  commandZ c ≠ 0 ∨ (0x03 ≤ c.toNat ∧ c.toNat ≤ 0x07) ∨ (0x42 ≤ c.toNat ∧ c.toNat ≤ 0x47) ∨
    (0xC1 ≤ c.toNat ∧ c.toNat ≤ 0xC7)

/-- The quotient/remainder identity read as unsigned (R112). -/
def UnsignedIdentity {w : Nat} (a b q r : BitVec w) : Prop :=
  a.toNat = q.toNat * b.toNat + r.toNat ∧ r.toNat < b.toNat

/-- The quotient/remainder identity read as two's complement: exact but for the most negative value by minus
one, where it holds modulo 2^N; the remainder is smaller than the divisor and has the dividend's sign (R112). -/
def SignedIdentity {w : Nat} (a b q r : BitVec w) : Prop :=
  (¬ (a = BitVec.intMin w ∧ b = BitVec.allOnes w) → a.toInt = q.toInt * b.toInt + r.toInt) ∧
  a = q * b + r ∧ r.toInt.natAbs < b.toInt.natAbs ∧ (r = 0 ∨ r.msb = a.msb)

/-- `2^k * M(a)` with the scale of the quotient of `a` by `b`: k is 24 where M(a) < M(b) and 23 otherwise (R145). -/
def scaledDividend (a b : Word32) : Nat :=
  floatMant a * 2 ^ (if floatMant a < floatMant b then 24 else 23)

end Sys2Proof.Safety
end

