-- ==== Sys2Proof/Certificates/Slice0/Obligations.lean ====
section
/-! DEFINITION. The statements for the provers, from the spec's numbered rules. -/

open Sys2Proof Sys2Proof.Machine Sys2Proof.Safety

/-! ## Commands as bytes -/

/-- R62: the fourteen codes, and no other byte selects any of the operations (mask 0xFF). -/
def Obligations.CommandCodesDecode : Prop :=
  decodeByte 0x00 = .ok .shl64 ∧ decodeByte 0x01 = .ok .shrLogical64 ∧
  decodeByte 0x02 = .ok .shrArith64 ∧ decodeByte 0x40 = .ok .mulTrunc32 ∧
  decodeByte 0x41 = .ok .mulTrunc64 ∧ decodeByte 0x80 = .ok .divU32 ∧
  decodeByte 0x81 = .ok .divU64 ∧ decodeByte 0x82 = .ok .divS32 ∧ decodeByte 0x83 = .ok .divS64 ∧
  decodeByte 0x84 = .ok .modU32 ∧ decodeByte 0x85 = .ok .modU64 ∧ decodeByte 0x86 = .ok .modS32 ∧
  decodeByte 0x87 = .ok .modS64 ∧ decodeByte 0xC0 = .ok .fdiv32 ∧
  ∀ c d i, decodeByte c = .ok i → decodeByte d = .ok i → c = d

/-- R60, R61: decoding a command's bytes gives the command and leaves the rest, and only its bytes do. -/
def Obligations.DecodeEncodeAgree : Prop :=
  ∀ bs i rest, decode bs = .ok (i, rest) ↔ bs = encode i ++ rest

/-- R60, R63: the rules for the fields ENG, Z and FN admit exactly the bytes of the opcode map. -/
def Obligations.FieldRulesAdmitExactlyTheMap : Prop :=
  ∀ c, commandWellFormed c = true ↔ ∃ i, decodeByte c = .ok i

/-- R66: the 242 reserved bytes, and a write of one completes and changes nothing. -/
def Obligations.ReservedBytesDoNothing : Prop :=
  (∀ c, ReservedByte c ↔ decodeByte c = .rejected (.reservedCommand c)) ∧
  ((List.range 256).filter (fun n => decodeByte (BitVec.ofNat 8 n) ==
    .rejected (.reservedCommand (BitVec.ofNat 8 n)))).length = 242 ∧
  ∀ c (s : State) rest, ReservedByte c →
    step (s.withPending (.wr8 cmdOffset c :: rest)) = .next (s.withPending rest)

/-! ## Steps -/

/-- R27, R48, R61: a write to CMD of a byte that decodes runs exactly that command, on the state with the write
taken off the pending actions; so does the step of `withFetchWord`. -/
def Obligations.StepRunsDecodedCommand : Prop :=
  (∀ (s : State) rest c i, decodeByte c = .ok i →
    step (s.withPending (.wr8 cmdOffset c :: rest)) = exec i (s.withPending rest)) ∧
  ∀ (s : State) w i, decodeTableWord 8 w = some i → step (s.withFetchWord 8 w) = exec i s

/-- R160, R190: no step raises a fault, whatever the state and the host's action, modulo by zero and shifts by 64 or
more included; and every step whose termination R190 supports answers a next state. The premise excludes exactly the
commands without a defined result. That a read or a command meeting a byte nothing has written goes on is the MODEL'S
CHOICE and not R160's words (log entry 1; R33 and U6 ask a model to fault). -/
def Obligations.EveryStepAnswersNext : Prop :=
  (∀ s f, step s ≠ .fault f) ∧ ∀ s : State, stepTerminates s = true → ∃ t, step s = .next t

/-- R46, R48, R51, R190: a step with an action pending, whose termination R190 supports, takes exactly one access off the
work left. For a byte nothing has written this rests on the model's choice (log entry 1). -/
def Obligations.StepTakesOneAccess : Prop :=
  ∀ s : State, s.pending ≠ [] → stepTerminates s = true →
    ∃ t, step s = .next t ∧ stepsLeft t + 1 = stepsLeft s

/-- R31, R48, R51, R190: if R190 supports the termination of every step the host's pending actions take, they are
completed after exactly `stepsLeft` steps, and not before. No modulo by zero and no shift by 64 or more is claimed to
end. That a byte nothing has written stops nothing is the MODEL'S CHOICE (log entry 1). -/
def Obligations.PendingActionsComplete : Prop :=
  ∀ s : State, runTerminates (stepsLeft s) s →
    (∃ t, runSteps (stepsLeft s) s = .next t ∧ t.pending = []) ∧
    ∀ k < stepsLeft s, ∃ t, runSteps k s = .next t ∧ t.pending ≠ []

/-- R33, R48, R190: a command whose operand bytes hold a value and whose rule defines a result `v` completes: the host's
write of its byte to CMD is one step, after which RES is `v`, holding a value in all its bytes, nothing else has
changed and the host goes on with its later actions. Modulo by zero and shifts by 64 or more define no result, so this
says nothing of them. -/
def Obligations.DefinedCommandsTerminate : Prop :=
  ∀ i v (s : State) rest, operandsHeld (operandUse i) s = true → execValue i s.opa s.opb = some v →
    ∃ t, step (s.withPending (.wr8 cmdOffset (encodeByte i) :: rest)) = .next t ∧
      t.res = v ∧ t.resHeld = 0xFF ∧ OnlyResChanged (s.withPending rest) t

/-- R31, R33, R48, R190: termination resting on none of the model's choices (log entries 1, 4 and 5). A safe step (no modulo
by zero, no shift by 64 or more, no byte without a value, no reserved command byte) answers a next state with one access
fewer left; and when the steps the host's actions take are all safe, the actions complete after exactly that many. -/
def Obligations.SafeStepsTerminate : Prop :=
  (∀ s : State, stepSafe s = true →
    ∃ t, step s = .next t ∧ (s.pending ≠ [] → stepsLeft t + 1 = stepsLeft s)) ∧
  ∀ s : State, runSafe (stepsLeft s) s →
    (∃ t, runSteps (stepsLeft s) s = .next t ∧ t.pending = []) ∧
    ∀ k < stepsLeft s, ∃ t, runSteps k s = .next t ∧ t.pending ≠ []

/-- R32, R180: right after reset, and after the platform's reset of any state (also right after a command
whose termination R190 supports), no byte of OPA, OPB and RES holds a value; the host's own data is not the CORE's and stays. -/
def Obligations.ResetLeavesNoByteHeld : Prop :=
  (∀ off : Offset, off.toNat < 0x18 → byteHeld off State.reset = false) ∧
  (∀ (s : State) (rest : List HostAction), ∃ t, step (s.withPending (.reset :: rest)) = .next t ∧
    (∀ off : Offset, off.toNat < 0x18 → byteHeld off t = false) ∧
    t.pending = rest ∧ t.received = s.received) ∧
  ∀ (s : State) c rest, commandTerminates c s = true → ∃ t, runSteps 2
      (s.withPending (.wr8 cmdOffset c :: .reset :: rest)) = .next t ∧
    (∀ off : Offset, off.toNat < 0x18 → byteHeld off t = false) ∧ t.pending = rest

/-- The invariant below holds right after reset, and after the platform's reset of any state. -/
def Obligations.UnwrittenOperandsAtReset : Prop :=
  UnwrittenOperandsAsReset State.reset ∧
  ∀ (s : State) (rest : List HostAction), ∃ t, step (s.withPending (.reset :: rest)) = .next t ∧
    UnwrittenOperandsAsReset t ∧ t.pending = rest

/-- R21, R22, R33, R43: every step keeps "a byte of OPA or OPB that nothing has written since reset still reads as it did
at reset". What it reads is the model's choice (log entry 1); that nothing but a host write changes it is the spec's. -/
def Obligations.UnwrittenOperandsKept : Prop :=
  ∀ (s : State) t, UnwrittenOperandsAsReset s → step s = .next t → UnwrittenOperandsAsReset t

/-- R21, R22: a step changes OPA only when it is a host write to one of OPA's offsets or the platform's reset, and
the same for OPB: no command changes an operand register. -/
def Obligations.OperandsChangedOnlyByHost : Prop :=
  ∀ (s : State) t, step s = .next t →
    (t.opa ≠ s.opa → ∃ rest,
      (∃ off v, s.pending = .wr8 off v :: rest ∧ off.toNat ≤ 0x07) ∨
      (∃ off v, s.pending = .wr16 off v :: rest ∧ off.toNat ≤ 0x07) ∨ s.pending = .reset :: rest) ∧
    (t.opb ≠ s.opb → ∃ rest,
      (∃ off v, s.pending = .wr8 off v :: rest ∧ 0x08 ≤ off.toNat ∧ off.toNat ≤ 0x0F) ∨
      (∃ off v, s.pending = .wr16 off v :: rest ∧ 0x08 ≤ off.toNat ∧ off.toNat ≤ 0x0F) ∨
      s.pending = .reset :: rest)

/-- R23: a step changes RES only when it is a host write of a defined command's byte to CMD, a host write to one of RES's
offsets, or the platform's reset. -/
def Obligations.ResChangedOnlyByCommandOrHost : Prop :=
  ∀ (s : State) t, step s = .next t → t.res ≠ s.res → ∃ rest,
    (∃ off v, s.pending = .wr8 off v :: rest ∧ ((0x10 ≤ off.toNat ∧ off.toNat ≤ 0x17) ∨
      (off = cmdOffset ∧ ∃ i, decodeByte v = .ok i))) ∨
    (∃ off v, s.pending = .wr16 off v :: rest ∧ ((0x10 ≤ off.toNat ∧ off.toNat ≤ 0x17) ∨
      (off = cmdOffset ∧ ∃ i, decodeByte (v.extractLsb' 0 8) = .ok i))) ∨
    s.pending = .reset :: rest

/-! ## The register window -/

/-- R43, R45: a host write to a register byte changes that byte, marks it as holding a value, and changes nothing else;
a write to a reserved offset changes nothing. -/
def Obligations.HostWriteChangesOneByte : Prop :=
  ∀ (s : State) (off : Offset) v rest,
    (off.toNat < 0x18 → ∃ t, step (s.withPending (.wr8 off v :: rest)) = .next t ∧
      memRead8 off t = v ∧ byteHeld off t = true ∧
      (∀ o, o ≠ off → memRead8 o t = memRead8 o s ∧ byteHeld o t = byteHeld o s) ∧
      t.pending = rest ∧ t.received = s.received ∧ t.draws = s.draws) ∧
    (0x18 < off.toNat → step (s.withPending (.wr8 off v :: rest)) = .next (s.withPending rest))

/-- R41, R44: a host read answers the byte of OPA, OPB or RES at that offset, and 0x00 from CMD and the reserved
offsets; it changes nothing but what the host has received (R43, R49). -/
def Obligations.HostReadAnswersByte : Prop :=
  ∀ (s : State) (off : Offset) rest, ∃ b : Byte,
    step (s.withPending (.rd8 off :: rest)) = .next ((s.withPending rest).receive b) ∧
    (off.toNat ≤ 0x07 → b.toNat = s.opa.toNat / 256 ^ off.toNat % 256) ∧
    (0x08 ≤ off.toNat ∧ off.toNat ≤ 0x0F → b.toNat = s.opb.toNat / 256 ^ (off.toNat - 0x08) % 256) ∧
    (0x10 ≤ off.toNat ∧ off.toNat ≤ 0x17 → b.toNat = s.res.toNat / 256 ^ (off.toNat - 0x10) % 256) ∧
    (0x18 ≤ off.toNat → b = 0x00)

/-- R42: each register is the little-endian concatenation of its eight window bytes. -/
def Obligations.RegistersAreLittleEndian : Prop :=
  ∀ (s : State),
    s.opa.toNat = ((List.range 8).map (fun i =>
      (memRead8 (BitVec.ofNat 5 i) s).toNat * 256 ^ i)).sum ∧
    s.opb.toNat = ((List.range 8).map (fun i =>
      (memRead8 (BitVec.ofNat 5 (0x08 + i)) s).toNat * 256 ^ i)).sum ∧
    s.res.toNat = ((List.range 8).map (fun i =>
      (memRead8 (BitVec.ofNat 5 (0x10 + i)) s).toNat * 256 ^ i)).sum

/-- R42, R46: writing a register as four 16-bit words and as eight bytes reaches the same state, in which the
register is the value written and all its bytes hold a value. -/
def Obligations.WordAndByteWritesAgree : Prop :=
  ∀ (s : State) v rest,
    (∃ t, runSteps 8 (s.withPending (writeBytes 0x00 8 v ++ rest)) = .next t ∧
      runSteps 8 (s.withPending (writeWords 0x00 4 v ++ rest)) = .next t ∧
      t = (s.withPending rest).putOpa v 0xFF) ∧
    (∃ t, runSteps 8 (s.withPending (writeBytes 0x08 8 v ++ rest)) = .next t ∧
      runSteps 8 (s.withPending (writeWords 0x08 4 v ++ rest)) = .next t ∧
      t = (s.withPending rest).putOpb v 0xFF) ∧
    (∃ t, runSteps 8 (s.withPending (writeBytes 0x10 8 v ++ rest)) = .next t ∧
      runSteps 8 (s.withPending (writeWords 0x10 4 v ++ rest)) = .next t ∧
      t = (s.withPending rest).putRes v 0xFF)

/-- R46: a 16-bit access inside the window is two byte accesses, the lower offset first. For a byte nothing has written
the read answers the model's reset value (log entry 1). -/
def Obligations.SixteenBitIsTwoByteAccesses : Prop :=
  ∀ (s : State) (off : Offset) v rest, off ≠ 0x1F →
    runSteps 2 (s.withPending (.wr16 off v :: rest)) =
      runSteps 2
        (s.withPending (.wr8 off (v.extractLsb' 0 8) :: .wr8 (off + 1) (v.extractLsb' 8 8) :: rest)) ∧
    runSteps 2 (s.withPending (.rd16 off :: rest)) =
      runSteps 2 (s.withPending (.rd8 off :: .rd8 (off + 1) :: rest)) ∧
    runSteps 2 (s.withPending (.rd16 off :: rest)) =
      .next (((s.withPending rest).receive (memRead8 off s)).receive (memRead8 (off + 1) s))

/-- R47: a 16-bit write at 0x17 writes RES byte 7 and then performs its high byte as a command; a 16-bit write
at 0x1F touches one byte of the window, which ignores it. -/
def Obligations.SixteenBitAccessAtEdges : Prop :=
  (∀ (s : State) (v : Word16) rest i, decodeByte (v.extractLsb' 8 8) = .ok i →
    runSteps 2 (s.withPending (.wr16 0x17 v :: rest)) =
      exec i ((memWrite8 0x17 (v.extractLsb' 0 8) s).withPending rest)) ∧
  ∀ (s : State) (v : Word16) rest, step (s.withPending (.wr16 0x1F v :: rest)) = .next (s.withPending rest)

/-- R50: host address `CORE_BASE + k`, k in 0 to 31, is offset k; no other address reaches the CORE. -/
def Obligations.WindowSitsAtCoreBase : Prop :=
  (∀ k < 32, windowOffset (Config.coreBase + k) = some (BitVec.ofNat 5 k)) ∧
  ∀ addr v, addr < Config.coreBase ∨ Config.coreBase + 32 ≤ addr →
    windowOffset addr = none ∧ readAt addr = [] ∧ writeAt addr v = []

/-- R70: `mvra64` and `mvrb64` copy RES to OPA and to OPB through the host and change no other register. Where a byte
of RES holds no value, that the read goes on is the model's choice (log entry 1). -/
def Obligations.MoveResultToOperand : Prop :=
  ∀ (s : State) (rest : List HostAction),
    (∃ t, runSteps 16 (s.withPending (mvra64 ++ rest)) = .next t ∧
      t.opa = s.res ∧ t.opaHeld = 0xFF ∧ t.opb = s.opb ∧ t.res = s.res ∧ t.pending = rest) ∧
    (∃ t, runSteps 16 (s.withPending (mvrb64 ++ rest)) = .next t ∧
      t.opb = s.res ∧ t.opbHeld = 0xFF ∧ t.opa = s.opa ∧ t.res = s.res ∧ t.pending = rest)

/-- R70, R188: `lda32` and `ldb32` leave bytes 4 to 7 of their register as they were, and `ldcnt` bytes 1 to 7 of OPB. -/
def Obligations.ShortLoadsKeepUpperBytes : Prop :=
  ∀ (s : State) rest (v : Word32) (n : Byte),
    (∃ t, runSteps 4 (s.withPending (lda32 v ++ rest)) = .next t ∧
      t = (s.withPending rest).putOpa (s.opa.extractLsb' 32 32 ++ v) (s.opaHeld ||| 0x0F)) ∧
    (∃ t, runSteps 4 (s.withPending (ldb32 v ++ rest)) = .next t ∧
      t = (s.withPending rest).putOpb (s.opb.extractLsb' 32 32 ++ v) (s.opbHeld ||| 0x0F)) ∧
    ∃ t, runSteps 1 (s.withPending (ldcnt n ++ rest)) = .next t ∧
      t = (s.withPending rest).putOpb (s.opb.extractLsb' 8 56 ++ n) (s.opbHeld ||| 0x01)

/-! ## What every command does and leaves -/

/-- R21, R22, R23: the frame of all fourteen commands. -/
def Obligations.CommandsChangeOnlyRes : Prop := ∀ i (s : State) t, exec i s = .next t → OnlyResChanged s t

/-- R23: a 32-bit operation with a defined result leaves RES[63:32] zero. -/
def Obligations.NarrowResultsZeroExtended : Prop :=
  ∀ i (s : State), operandUse i = .narrow → resultDefined i s = true →
    ∃ t, exec i s = .next t ∧ t.res.toNat < 2 ^ 32

/-- R33 and log entry 9: after a command all bytes of RES hold a value, except where its result is unspecified or it
read an operand byte without a value; then none does. -/
def Obligations.ResHeldAfterCommand : Prop :=
  ∀ i (s : State) t, exec i s = .next t →
    (operandsHeld (operandUse i) s = true ∧ resultDefined i s = true → t.resHeld = 0xFF) ∧
    (operandsHeld (operandUse i) s = false ∨ resultDefined i s = false → t.resHeld = 0x00)

/-- R5, R24: a defined result depends on the operation and the operand bits R24 names, on nothing else. -/
def Obligations.CommandsArePure : Prop :=
  ∀ i (s : State) t, operandBitsA i s.opa = operandBitsA i t.opa → operandBitsB i s.opb = operandBitsB i t.opb →
    resultDefined i s = true →
    ∃ s' t', exec i s = .next s' ∧ exec i t = .next t' ∧ s'.res = t'.res

/-- R49: performing a command with a defined result a second time changes nothing. -/
def Obligations.CommandsAreIdempotent : Prop :=
  ∀ i (s : State) t, resultDefined i s = true → exec i s = .next t → exec i t = .next t

/-- R33, U6: a safe step neither depends on a byte without a value nor lets one into a byte with a value or into what
the host receives: two states that agree but for such bytes step to two states that do. -/
def Obligations.SafeStepIgnoresUnheldBytes : Prop :=
  ∀ (s : State) t, AgreeOnHeld s t → stepSafe s = true →
    ∃ s' t', step s = .next s' ∧ step t = .next t' ∧ AgreeOnHeld s' t'

/-- R33, R181 to R184: over any number of safe steps, what the host receives does not depend on what unwritten bytes
happened to hold; in particular not on the reset contents of log entry 1. -/
def Obligations.SafeRunsIgnoreResetContents : Prop :=
  ∀ n (s : State) t, AgreeOnHeld s t → runSafe n s →
    ∃ s' t', runSteps n s = .next s' ∧ runSteps n t = .next t' ∧
      AgreeOnHeld s' t' ∧ s'.received = t'.received

/-- R70, R182: `call m(a, b)`, from any state, leaves `Exec(m, a, b)` in RES, delivers its bytes to the host low byte
first, and leaves the rest of the host's actions. -/
def Obligations.CallDeliversExec : Prop :=
  ∀ i a b v (s : State) rest, execValue i a b = some v →
    ∃ t, runSteps (call i a b).length (s.withPending (call i a b ++ rest)) = .next t ∧
      t.res = v ∧ t.resHeld = 0xFF ∧ t.pending = rest ∧
      t.received = ((List.range (resultBytes i)).map (byteOf v)).reverse ++ s.received

/-! ## Shift Engine -/

/-- R82: shl64 for counts 0 to 63. -/
def Obligations.Shl64Result : Prop :=
  encodeByte .shl64 = 0x00 ∧
  ∀ (s : State), s.opb.toNat % 256 < 64 → ∃ v, CompletesWith .shl64 s v ∧
    v.toNat = s.opa.toNat * 2 ^ (s.opb.toNat % 256) % 2 ^ 64 ∧
    ∀ i < 64, v.getLsbD i = (decide (s.opb.toNat % 256 ≤ i) && s.opa.getLsbD (i - s.opb.toNat % 256))

/-- R83: shr_logical64 for counts 0 to 63. -/
def Obligations.ShrLogical64Result : Prop :=
  encodeByte .shrLogical64 = 0x01 ∧
  ∀ (s : State), s.opb.toNat % 256 < 64 → ∃ v, CompletesWith .shrLogical64 s v ∧
    v.toNat = s.opa.toNat / 2 ^ (s.opb.toNat % 256) ∧
    ∀ i < 64, v.getLsbD i = (decide (i + s.opb.toNat % 256 ≤ 63) && s.opa.getLsbD (i + s.opb.toNat % 256))

/-- R84: shr_arith64 for counts 0 to 63. -/
def Obligations.ShrArith64Result : Prop :=
  encodeByte .shrArith64 = 0x02 ∧
  ∀ (s : State), s.opb.toNat % 256 < 64 → ∃ v, CompletesWith .shrArith64 s v ∧
    v.toInt = Int.fdiv s.opa.toInt (2 ^ (s.opb.toNat % 256)) ∧
    ∀ i < 64, v.getLsbD i =
      if i + s.opb.toNat % 256 ≤ 63 then s.opa.getLsbD (i + s.opb.toNat % 256) else s.opa.getLsbD 63

/-- R85: for counts 64 to 255 the command completes with RES unspecified (a free value, log entry 2) and changes nothing
else. -/
def Obligations.ShiftBy64OrMoreUnspecified : Prop :=
  ∀ (s : State), 64 ≤ s.opb.toNat % 256 →
    CompletesUnspecified .shl64 s ∧ CompletesUnspecified .shrLogical64 s ∧ CompletesUnspecified .shrArith64 s

/-- R86: the laws of the shifts. -/
def Obligations.ShiftLaws : Prop :=
  (∀ x (n m : Byte), n.toNat + m.toNat < 64 →
    (shl64 x n).bind (fun y => shl64 y m) = shl64 x (n + m) ∧
    (shrLogical64 x n).bind (fun y => shrLogical64 y m) = shrLogical64 x (n + m) ∧
    (shrArith64 x n).bind (fun y => shrArith64 y m) = shrArith64 x (n + m)) ∧
  (∀ x (n : Byte), n.toNat < 64 →
    (shl64 x n).bind (fun y => shrLogical64 y n) = some (x &&& BitVec.ofNat 64 (2 ^ (64 - n.toNat) - 1)) ∧
    (shrLogical64 x n).bind (fun y => shl64 y n) = some (x &&& ~~~ BitVec.ofNat 64 (2 ^ n.toNat - 1)) ∧
    (x.getLsbD 63 = false → shrArith64 x n = shrLogical64 x n) ∧
    (x.getLsbD 63 = true → shrArith64 x n = (shrLogical64 (~~~ x) n).map (~~~ ·)) ∧
    shl64 x n = some (mulTrunc x (BitVec.ofNat 64 (2 ^ n.toNat))) ∧
    shrLogical64 x n = some (udivN x (BitVec.ofNat 64 (2 ^ n.toNat))))

/-- R81: the two-phase word shifter computes the three contracts for counts 0 to 63. -/
def Obligations.BarrelShifterMeetsContract : Prop :=
  ∀ x (n : Byte), n.toNat < 64 →
    shl64 x n = some (barrelLeft x n.toNat) ∧
    shrLogical64 x n = some (barrelRight 0x0000 x n.toNat) ∧
    shrArith64 x n = some (barrelRight (signFill x) x n.toNat)

/-! ## Multiply Engine -/

/-- R101: the product modulo 2^32, of the low halves, zero-extended. -/
def Obligations.MulTrunc32Result : Prop :=
  encodeByte .mulTrunc32 = 0x40 ∧
  ∀ (s : State), ∃ v, CompletesWith .mulTrunc32 s v ∧
    v.toNat = (s.opa.toNat % 2 ^ 32) * (s.opb.toNat % 2 ^ 32) % 2 ^ 32

/-- R102: the product modulo 2^64. -/
def Obligations.MulTrunc64Result : Prop :=
  encodeByte .mulTrunc64 = 0x41 ∧
  ∀ (s : State), ∃ v, CompletesWith .mulTrunc64 s v ∧ v.toNat = s.opa.toNat * s.opb.toNat % 2 ^ 64

/-- R104: commutativity, agreement of the signed and unsigned readings, and the products with 0, 1 and -1. -/
def Obligations.MultiplyLaws : Prop :=
  ∀ w, w = 32 ∨ w = 64 → ∀ a b : BitVec w,
    mulTrunc a b = mulTrunc b a ∧ mulTrunc a b = BitVec.ofInt w (a.toInt * b.toInt) ∧
    mulTrunc a 0 = 0 ∧ mulTrunc a 1 = a ∧ mulTrunc a (BitVec.allOnes w) = negN a

/-- R103: the three 16-bit products and the 36 byte products compute the two contracts. -/
def Obligations.PartialProductsMeetContract : Prop :=
  (∀ a b : Word32, partialProducts32 a b = mulTrunc a b) ∧ ∀ a b : Word64, byteProducts64 a b = mulTrunc a b

/-! ## Division/Modulo Engine -/

/-- R113: the truncated quotient of the low halves; all ones for divisor zero. -/
def Obligations.DivU32Result : Prop :=
  encodeByte .divU32 = 0x80 ∧
  ∀ (s : State), ∃ v, CompletesWith .divU32 s v ∧
    (s.opb.toNat % 2 ^ 32 ≠ 0 → v.toNat = (s.opa.toNat % 2 ^ 32) / (s.opb.toNat % 2 ^ 32)) ∧
    (s.opb.toNat % 2 ^ 32 = 0 → v.toNat = 0xFFFFFFFF)

/-- R114: the truncated quotient; all ones for divisor zero, which the spec derives from R111 at N = 64. -/
def Obligations.DivU64Result : Prop :=
  encodeByte .divU64 = 0x81 ∧
  ∀ (s : State), ∃ v, CompletesWith .divU64 s v ∧ (s.opb ≠ 0 → v.toNat = s.opa.toNat / s.opb.toNat) ∧
    (s.opb = 0 → v.toNat = 0xFFFFFFFFFFFFFFFF)

/-- R117: truncated toward zero; the one quotient that does not fit wraps; divisor zero gives all ones or 1 (the spec
derives those two values: 91_not_in_source.md N18, 93_implementation_defined.md U3). -/
def Obligations.DivS32Result : Prop :=
  encodeByte .divS32 = 0x82 ∧
  ∀ (s : State), ∃ r : Word32, CompletesWith .divS32 s (r.setWidth 64) ∧
    (lowHalf s.opb ≠ 0 → r = BitVec.ofInt 32 ((lowHalf s.opa).toInt.tdiv (lowHalf s.opb).toInt)) ∧
    (lowHalf s.opb = 0 → r = if (lowHalf s.opa).toInt < 0 then 1 else 0xFFFFFFFF)

/-- R118: as R117 at 64 bits; the values for divisor zero are the spec's derivation (N18, U3). -/
def Obligations.DivS64Result : Prop :=
  encodeByte .divS64 = 0x83 ∧
  ∀ (s : State), ∃ v, CompletesWith .divS64 s v ∧
    (s.opb ≠ 0 → v = BitVec.ofInt 64 (s.opa.toInt.tdiv s.opb.toInt)) ∧
    (s.opb = 0 → v = if s.opa.toInt < 0 then 1 else 0xFFFFFFFFFFFFFFFF)

/-- R119: the remainder of the low halves, for a divisor other than zero. -/
def Obligations.ModU32Result : Prop :=
  encodeByte .modU32 = 0x84 ∧
  ∀ (s : State), s.opb.toNat % 2 ^ 32 ≠ 0 → ∃ v, CompletesWith .modU32 s v ∧
    v.toNat = (s.opa.toNat % 2 ^ 32) % (s.opb.toNat % 2 ^ 32)

/-- R120: the remainder, for a divisor other than zero. -/
def Obligations.ModU64Result : Prop :=
  encodeByte .modU64 = 0x85 ∧
  ∀ (s : State), s.opb ≠ 0 → ∃ v, CompletesWith .modU64 s v ∧ v.toNat = s.opa.toNat % s.opb.toNat

/-- R122: the remainder with the dividend's sign, zero-extended. -/
def Obligations.ModS32Result : Prop :=
  encodeByte .modS32 = 0x86 ∧
  ∀ (s : State), lowHalf s.opb ≠ 0 → ∃ r : Word32, CompletesWith .modS32 s (r.setWidth 64) ∧
    r = BitVec.ofInt 32 ((lowHalf s.opa).toInt.tmod (lowHalf s.opb).toInt)

/-- R123: as R122 at 64 bits. -/
def Obligations.ModS64Result : Prop :=
  encodeByte .modS64 = 0x87 ∧
  ∀ (s : State), s.opb ≠ 0 → ∃ v, CompletesWith .modS64 s v ∧ v = BitVec.ofInt 64 (s.opa.toInt.tmod s.opb.toInt)

/-- R124, by log entry 4: a modulo by zero completes with RES unspecified (all 64 bits) and changes nothing else. -/
def Obligations.ModuloByZeroUnspecified : Prop :=
  ∀ (s : State), (lowHalf s.opb = 0 → CompletesUnspecified .modU32 s ∧ CompletesUnspecified .modS32 s) ∧
    (s.opb = 0 → CompletesUnspecified .modU64 s ∧ CompletesUnspecified .modS64 s)

/-- R112: the quotient and the remainder the two commands leave satisfy the identity, for all four pairs. -/
def Obligations.QuotientRemainderIdentity : Prop :=
  ∀ (s : State),
    (lowHalf s.opb ≠ 0 →
      (∃ tq tr, exec .divU32 s = .next tq ∧ exec .modU32 s = .next tr ∧
        UnsignedIdentity (lowHalf s.opa) (lowHalf s.opb) (lowHalf tq.res) (lowHalf tr.res)) ∧
      (∃ tq tr, exec .divS32 s = .next tq ∧ exec .modS32 s = .next tr ∧
        SignedIdentity (lowHalf s.opa) (lowHalf s.opb) (lowHalf tq.res) (lowHalf tr.res))) ∧
    (s.opb ≠ 0 →
      (∃ tq tr, exec .divU64 s = .next tq ∧ exec .modU64 s = .next tr ∧
        UnsignedIdentity s.opa s.opb tq.res tr.res) ∧
      (∃ tq tr, exec .divS64 s = .next tq ∧ exec .modS64 s = .next tr ∧
        SignedIdentity s.opa s.opb tq.res tr.res))

/-- R111: restoring division computes the quotient for every divisor, zero included, and ends with the remainder. -/
def Obligations.RestoringDivisionMeetsContract : Prop :=
  ∀ w (a b : BitVec w), (restoringDivide a b).1 = udivN a b ∧
    (b ≠ 0 → (restoringDivide a b).2 = a.toNat % b.toNat)

/-- R121: for a divisor other than zero the normalised subtraction computes the remainder, after at most 63 alignment
shifts that leave the divisor aligned with the dividend or unshifted. -/
def Obligations.NormalisedModuloMeetsContract : Prop :=
  ∀ a b : Word64, b ≠ 0 →
    normalisedMod a b = a.toNat % b.toNat ∧
    (alignDivisor a.toNat 63 b.toNat 0).2 ≤ 63 ∧
    (((alignDivisor a.toNat 63 b.toNat 0).1 ≤ a.toNat ∧ a.toNat < 2 * (alignDivisor a.toNat 63 b.toNat 0).1) ∨
      (alignDivisor a.toNat 63 b.toNat 0).2 = 0)

/-! ## Float Division Engine -/

/-- R143: the pre-check for a divisor whose exponent field is 0. -/
def Obligations.FdivPrecheckResult : Prop :=
  ∀ (s : State), floatExp (lowHalf s.opb) = 0 → ∃ r : Word32, CompletesWith .fdiv32 s (r.setWidth 64) ∧
    (floatExp (lowHalf s.opa) = 0 ∨ isNaN (lowHalf s.opa) = true → r = fdivNan ∧ isNaN r = true) ∧
    (floatExp (lowHalf s.opa) ≠ 0 ∧ isNaN (lowHalf s.opa) = false →
      r = if (lowHalf s.opa).getLsbD 31 then 0xFF800000 else 0x7F800000)

/-- R144, R146: on the generic path a dividend with exponent field 0 and an exponent below 1 give +0.0, and an exponent
of 255 or more gives the infinity of the sign of the quotient. -/
def Obligations.FdivFlushAndOverflow : Prop :=
  ∀ (s : State), floatExp (lowHalf s.opb) ≠ 0 → ∃ r : Word32, CompletesWith .fdiv32 s (r.setWidth 64) ∧
    (floatExp (lowHalf s.opa) = 0 → r = 0x00000000) ∧
    (floatExp (lowHalf s.opa) ≠ 0 ∧ fdivExponent (lowHalf s.opa) (lowHalf s.opb) < 1 → r = 0x00000000) ∧
    (floatExp (lowHalf s.opa) ≠ 0 ∧ 255 ≤ fdivExponent (lowHalf s.opa) (lowHalf s.opb) →
      r = if (lowHalf s.opa).getLsbD 31 ^^ (lowHalf s.opb).getLsbD 31 then 0xFF800000 else 0x7F800000)

/-- R142, R145, R147, R149, R150: on the generic path with a result exponent of 1 to 254 the result has the sign of the
quotient, that exponent, and the mantissa nearest to the exact quotient of the mantissas; the inequalities are strict,
so there is never a tie. -/
def Obligations.FdivCorrectlyRounded : Prop :=
  ∀ (s : State) (e : Int), floatExp (lowHalf s.opa) ≠ 0 → floatExp (lowHalf s.opb) ≠ 0 →
    e = ((floatExp (lowHalf s.opa)).toNat : Int) - (floatExp (lowHalf s.opb)).toNat +
      (if floatMant (lowHalf s.opa) < floatMant (lowHalf s.opb) then 126 else 127) →
    1 ≤ e → e ≤ 254 →
    ∃ r : Word32, CompletesWith .fdiv32 s (r.setWidth 64) ∧
      floatSign r = floatSign (lowHalf s.opa) ^^^ floatSign (lowHalf s.opb) ∧
      ((floatExp r).toNat : Int) = e ∧
      2 * (floatMant r * floatMant (lowHalf s.opb)) <
        2 * scaledDividend (lowHalf s.opa) (lowHalf s.opb) + floatMant (lowHalf s.opb) ∧
      2 * scaledDividend (lowHalf s.opa) (lowHalf s.opb) <
        2 * (floatMant r * floatMant (lowHalf s.opb)) + floatMant (lowHalf s.opb)

/-- R148: the quotient of step 7 has bit 23 set and fits 24 bits, and rounding up keeps it there. -/
def Obligations.FdivQuotientRange : Prop :=
  ∀ a b : Word32,
    0x800000 ≤ (fdivLoop (floatMant b) (fdivPasses a b) (floatMant a) 0).2 ∧
    (fdivLoop (floatMant b) (fdivPasses a b) (floatMant a) 0).2 ≤ 0xFFFFFF ∧
    fdivQuotient a b ≤ 0xFFFFFF

/-- R152: the result is never a denormal and never -0.0, and it is a NaN only when the divisor's exponent field is 0
and the dividend is a zero, a denormal or a NaN. -/
def Obligations.FdivResultClasses : Prop :=
  ∀ (s : State) t, exec .fdiv32 s = .next t →
    isDenormal (lowHalf t.res) = false ∧ lowHalf t.res ≠ 0x80000000 ∧
    (isNaN (lowHalf t.res) = true ↔ floatExp (lowHalf s.opb) = 0 ∧
      (floatExp (lowHalf s.opa) = 0 ∨ isNaN (lowHalf s.opa) = true))

/-- R152: powers of two divide exactly. -/
def Obligations.FdivPowersOfTwo : Prop :=
  ∀ (s : State), floatExp (lowHalf s.opa) ≠ 0 → floatExp (lowHalf s.opb) ≠ 0 →
    floatFrac (lowHalf s.opa) = 0 → floatFrac (lowHalf s.opb) = 0 →
    1 ≤ ((floatExp (lowHalf s.opa)).toNat : Int) - (floatExp (lowHalf s.opb)).toNat + 127 →
    ((floatExp (lowHalf s.opa)).toNat : Int) - (floatExp (lowHalf s.opb)).toNat + 127 ≤ 254 →
    ∃ r : Word32, CompletesWith .fdiv32 s (r.setWidth 64) ∧ floatFrac r = 0 ∧
      ((floatExp r).toNat : Int) =
        ((floatExp (lowHalf s.opa)).toNat : Int) - (floatExp (lowHalf s.opb)).toNat + 127 ∧
      floatSign r = floatSign (lowHalf s.opa) ^^^ floatSign (lowHalf s.opb)
end

