-- ==== Sys2Proof/Laws/State.lean ====
section
/-! SUPPORT. One lemma per field and update of the state, so that no later proof unfolds a record update. -/

namespace Sys2Proof.Machine

@[simp] theorem State.putOpa_opa (v : Word64) (h : BitVec 8) (s : State) : (s.putOpa v h).opa = v := rfl
@[simp] theorem State.putOpa_opb (v : Word64) (h : BitVec 8) (s : State) : (s.putOpa v h).opb = s.opb := rfl
@[simp] theorem State.putOpa_res (v : Word64) (h : BitVec 8) (s : State) : (s.putOpa v h).res = s.res := rfl
@[simp] theorem State.putOpa_opaHeld (v : Word64) (h : BitVec 8) (s : State) : (s.putOpa v h).opaHeld = h := rfl
@[simp] theorem State.putOpa_opbHeld (v : Word64) (h : BitVec 8) (s : State) : (s.putOpa v h).opbHeld = s.opbHeld := rfl
@[simp] theorem State.putOpa_resHeld (v : Word64) (h : BitVec 8) (s : State) : (s.putOpa v h).resHeld = s.resHeld := rfl
@[simp] theorem State.putOpa_draws (v : Word64) (h : BitVec 8) (s : State) : (s.putOpa v h).draws = s.draws := rfl
@[simp] theorem State.putOpa_pending (v : Word64) (h : BitVec 8) (s : State) : (s.putOpa v h).pending = s.pending := rfl
@[simp] theorem State.putOpa_received (v : Word64) (h : BitVec 8) (s : State) : (s.putOpa v h).received = s.received := rfl

@[simp] theorem State.putOpb_opa (v : Word64) (h : BitVec 8) (s : State) : (s.putOpb v h).opa = s.opa := rfl
@[simp] theorem State.putOpb_opb (v : Word64) (h : BitVec 8) (s : State) : (s.putOpb v h).opb = v := rfl
@[simp] theorem State.putOpb_res (v : Word64) (h : BitVec 8) (s : State) : (s.putOpb v h).res = s.res := rfl
@[simp] theorem State.putOpb_opaHeld (v : Word64) (h : BitVec 8) (s : State) : (s.putOpb v h).opaHeld = s.opaHeld := rfl
@[simp] theorem State.putOpb_opbHeld (v : Word64) (h : BitVec 8) (s : State) : (s.putOpb v h).opbHeld = h := rfl
@[simp] theorem State.putOpb_resHeld (v : Word64) (h : BitVec 8) (s : State) : (s.putOpb v h).resHeld = s.resHeld := rfl
@[simp] theorem State.putOpb_draws (v : Word64) (h : BitVec 8) (s : State) : (s.putOpb v h).draws = s.draws := rfl
@[simp] theorem State.putOpb_pending (v : Word64) (h : BitVec 8) (s : State) : (s.putOpb v h).pending = s.pending := rfl
@[simp] theorem State.putOpb_received (v : Word64) (h : BitVec 8) (s : State) : (s.putOpb v h).received = s.received := rfl

@[simp] theorem State.putRes_opa (v : Word64) (h : BitVec 8) (s : State) : (s.putRes v h).opa = s.opa := rfl
@[simp] theorem State.putRes_opb (v : Word64) (h : BitVec 8) (s : State) : (s.putRes v h).opb = s.opb := rfl
@[simp] theorem State.putRes_res (v : Word64) (h : BitVec 8) (s : State) : (s.putRes v h).res = v := rfl
@[simp] theorem State.putRes_opaHeld (v : Word64) (h : BitVec 8) (s : State) : (s.putRes v h).opaHeld = s.opaHeld := rfl
@[simp] theorem State.putRes_opbHeld (v : Word64) (h : BitVec 8) (s : State) : (s.putRes v h).opbHeld = s.opbHeld := rfl
@[simp] theorem State.putRes_resHeld (v : Word64) (h : BitVec 8) (s : State) : (s.putRes v h).resHeld = h := rfl
@[simp] theorem State.putRes_draws (v : Word64) (h : BitVec 8) (s : State) : (s.putRes v h).draws = s.draws := rfl
@[simp] theorem State.putRes_pending (v : Word64) (h : BitVec 8) (s : State) : (s.putRes v h).pending = s.pending := rfl
@[simp] theorem State.putRes_received (v : Word64) (h : BitVec 8) (s : State) : (s.putRes v h).received = s.received := rfl

@[simp] theorem State.drawn_opa (s : State) : (s.drawn).opa = s.opa := rfl
@[simp] theorem State.drawn_opb (s : State) : (s.drawn).opb = s.opb := rfl
@[simp] theorem State.drawn_res (s : State) : (s.drawn).res = s.res := rfl
@[simp] theorem State.drawn_opaHeld (s : State) : (s.drawn).opaHeld = s.opaHeld := rfl
@[simp] theorem State.drawn_opbHeld (s : State) : (s.drawn).opbHeld = s.opbHeld := rfl
@[simp] theorem State.drawn_resHeld (s : State) : (s.drawn).resHeld = s.resHeld := rfl
@[simp] theorem State.drawn_draws (s : State) : (s.drawn).draws = s.draws + 1 := rfl
@[simp] theorem State.drawn_pending (s : State) : (s.drawn).pending = s.pending := rfl
@[simp] theorem State.drawn_received (s : State) : (s.drawn).received = s.received := rfl

@[simp] theorem State.withPending_opa (p : List HostAction) (s : State) : (s.withPending p).opa = s.opa := rfl
@[simp] theorem State.withPending_opb (p : List HostAction) (s : State) : (s.withPending p).opb = s.opb := rfl
@[simp] theorem State.withPending_res (p : List HostAction) (s : State) : (s.withPending p).res = s.res := rfl
@[simp] theorem State.withPending_opaHeld (p : List HostAction) (s : State) : (s.withPending p).opaHeld = s.opaHeld := rfl
@[simp] theorem State.withPending_opbHeld (p : List HostAction) (s : State) : (s.withPending p).opbHeld = s.opbHeld := rfl
@[simp] theorem State.withPending_resHeld (p : List HostAction) (s : State) : (s.withPending p).resHeld = s.resHeld := rfl
@[simp] theorem State.withPending_draws (p : List HostAction) (s : State) : (s.withPending p).draws = s.draws := rfl
@[simp] theorem State.withPending_pending (p : List HostAction) (s : State) : (s.withPending p).pending = p := rfl
@[simp] theorem State.withPending_received (p : List HostAction) (s : State) : (s.withPending p).received = s.received := rfl

@[simp] theorem State.receive_opa (b : Byte) (s : State) : (s.receive b).opa = s.opa := rfl
@[simp] theorem State.receive_opb (b : Byte) (s : State) : (s.receive b).opb = s.opb := rfl
@[simp] theorem State.receive_res (b : Byte) (s : State) : (s.receive b).res = s.res := rfl
@[simp] theorem State.receive_opaHeld (b : Byte) (s : State) : (s.receive b).opaHeld = s.opaHeld := rfl
@[simp] theorem State.receive_opbHeld (b : Byte) (s : State) : (s.receive b).opbHeld = s.opbHeld := rfl
@[simp] theorem State.receive_resHeld (b : Byte) (s : State) : (s.receive b).resHeld = s.resHeld := rfl
@[simp] theorem State.receive_draws (b : Byte) (s : State) : (s.receive b).draws = s.draws := rfl
@[simp] theorem State.receive_pending (b : Byte) (s : State) : (s.receive b).pending = s.pending := rfl
@[simp] theorem State.receive_received (b : Byte) (s : State) : (s.receive b).received = b :: s.received := rfl

/-- Setting the pending actions twice leaves the last setting. -/
@[simp] theorem State.withPending_withPending (p q : List HostAction) (s : State) :
    (s.withPending p).withPending q = s.withPending q := rfl
/-- Setting the pending actions to what they are changes nothing. -/
@[simp] theorem State.withPending_self (s : State) : s.withPending s.pending = s := rfl

end Sys2Proof.Machine
end

