-- ==== Sys2Proof/Laws/Ops.lean ====
section
/-! SUPPORT. What the shared operations over bytes, the window and RES do, once for each. -/

namespace Sys2Proof.Machine

/-- A byte of a register, bit by bit. -/
theorem getLsbD_byteOf (v : Word64) (i j : Nat) :
    (byteOf v i).getLsbD j = (decide (j < 8) && v.getLsbD (8 * i + j)) := by
  simp [byteOf]

/-- A register with one byte replaced, bit by bit. -/
theorem getLsbD_setByte (v : Word64) (i : Nat) (b : Byte) (k : Nat) (hk : k < 64) :
    (setByte v i b).getLsbD k =
      if 8 * i ≤ k ∧ k < 8 * i + 8 then b.getLsbD (k - 8 * i) else v.getLsbD k := by
  have hFF : ∀ m, (255#64).getLsbD m = decide (m < 8) := by
    intro m
    have h : (255#64) = (BitVec.allOnes 8).setWidth 64 := by decide
    rw [h, BitVec.getLsbD_setWidth, BitVec.getLsbD_allOnes]
    by_cases hm : m < 8
    · simp [hm]; omega
    · simp [hm]
  unfold setByte
  by_cases h1 : 8 * i ≤ k
  · by_cases h2 : k < 8 * i + 8
    · have h3 : k - 8 * i < 8 := by omega
      simp [hk, h1, h2, h3, hFF, Nat.not_lt.mpr h1]
    · have h3 : ¬ k - 8 * i < 8 := by omega
      have h4 : (255#64).getLsbD (k - 8 * i) = false := by rw [hFF]; simp [h3]
      simp only [BitVec.getLsbD_or, BitVec.getLsbD_and, BitVec.getLsbD_not, BitVec.getLsbD_shiftLeft, hk,
        Nat.not_lt.mpr h1, BitVec.getLsbD_setWidth, BitVec.getLsbD_of_ge b (k - 8 * i) (by omega)]
      simp only [h2]
      simpa using fun _ => h4
  · simp [hk, h1, Nat.lt_of_not_le h1]

/-- The byte just written is read back. -/
theorem byteOf_setByte_same (v : Word64) (i : Nat) (b : Byte) (hi : i < 8) :
    byteOf (setByte v i b) i = b := by
  apply BitVec.eq_of_getLsbD_eq
  intro j hj
  rw [getLsbD_byteOf, getLsbD_setByte _ _ _ _ (by omega)]
  simp [hj]

/-- Writing a byte leaves every other byte. -/
theorem byteOf_setByte_other (v : Word64) (i j : Nat) (b : Byte) (hij : i ≠ j) (hj : j < 8) :
    byteOf (setByte v i b) j = byteOf v j := by
  apply BitVec.eq_of_getLsbD_eq
  intro k hk
  rw [getLsbD_byteOf, getLsbD_byteOf, getLsbD_setByte _ _ _ _ (by omega), if_neg (by omega)]

/-- Two registers with the same eight bytes are equal. -/
theorem eq_of_byteOf_eq (v w : Word64) (h : ∀ i < 8, byteOf v i = byteOf w i) : v = w := by
  apply BitVec.eq_of_getLsbD_eq
  intro k hk
  have hb := congrArg (fun x => x.getLsbD (k % 8)) (h (k / 8) (by omega))
  simp only [getLsbD_byteOf] at hb
  have hk8 : k % 8 < 8 := Nat.mod_lt _ (by decide)
  simpa [hk8, Nat.div_add_mod] using hb

/-- Marking a byte adds that byte's mark and no other. -/
theorem getLsbD_heldMark (m : BitVec 8) (i j : Nat) (hj : j < 8) :
    (m ||| heldMark i).getLsbD j = (m.getLsbD j || decide (i = j)) := by
  rw [BitVec.getLsbD_or, heldMark, BitVec.getLsbD_shiftLeft, BitVec.getLsbD_one]
  congr 1
  by_cases h : i = j
  · simp [h, hj]
  · by_cases hle : j < i
    · simp [h, hle]
    · have : j - i ≠ 0 := by omega
      simp [h, this]

/-- A host write leaves the host's own data. -/
@[simp] theorem memWrite8_pending (off : Offset) (v : Byte) (s : State) :
    (memWrite8 off v s).pending = s.pending := by
  unfold memWrite8; split_ifs <;> rfl
@[simp] theorem memWrite8_received (off : Offset) (v : Byte) (s : State) :
    (memWrite8 off v s).received = s.received := by
  unfold memWrite8; split_ifs <;> rfl
@[simp] theorem memWrite8_draws (off : Offset) (v : Byte) (s : State) :
    (memWrite8 off v s).draws = s.draws := by
  unfold memWrite8; split_ifs <;> rfl
/-- A host write acts the same whatever is pending. -/
theorem memWrite8_withPending (off : Offset) (v : Byte) (p : List HostAction) (s : State) :
    memWrite8 off v (s.withPending p) = (memWrite8 off v s).withPending p := by
  unfold memWrite8; split_ifs <;> rfl

/-- The window's bytes do not depend on the host's own data. -/
@[simp] theorem memRead8_withPending (off : Offset) (p : List HostAction) (s : State) :
    memRead8 off (s.withPending p) = memRead8 off s := rfl
@[simp] theorem memRead8_receive (off : Offset) (b : Byte) (s : State) :
    memRead8 off (s.receive b) = memRead8 off s := rfl
@[simp] theorem memRead8_drawn (off : Offset) (s : State) : memRead8 off s.drawn = memRead8 off s := rfl
@[simp] theorem byteHeld_withPending (off : Offset) (p : List HostAction) (s : State) :
    byteHeld off (s.withPending p) = byteHeld off s := rfl
@[simp] theorem byteHeld_receive (off : Offset) (b : Byte) (s : State) :
    byteHeld off (s.receive b) = byteHeld off s := rfl
@[simp] theorem byteHeld_drawn (off : Offset) (s : State) : byteHeld off s.drawn = byteHeld off s := rfl

/-- RES is the only register a command's end writes. -/
@[simp] theorem State.complete_opa (u : OperandUse) (r : Option Word64) (s : State) :
    (s.complete u r).opa = s.opa := by cases r <;> rfl
@[simp] theorem State.complete_opb (u : OperandUse) (r : Option Word64) (s : State) :
    (s.complete u r).opb = s.opb := by cases r <;> rfl
@[simp] theorem State.complete_opaHeld (u : OperandUse) (r : Option Word64) (s : State) :
    (s.complete u r).opaHeld = s.opaHeld := by cases r <;> rfl
@[simp] theorem State.complete_opbHeld (u : OperandUse) (r : Option Word64) (s : State) :
    (s.complete u r).opbHeld = s.opbHeld := by cases r <;> rfl
@[simp] theorem State.complete_pending (u : OperandUse) (r : Option Word64) (s : State) :
    (s.complete u r).pending = s.pending := by cases r <;> rfl
@[simp] theorem State.complete_received (u : OperandUse) (r : Option Word64) (s : State) :
    (s.complete u r).received = s.received := by cases r <;> rfl
/-- What a command's end leaves in RES. -/
@[simp] theorem State.complete_res (u : OperandUse) (r : Option Word64) (s : State) :
    (s.complete u r).res = r.getD (Config.freeValue s.draws) := by cases r <;> rfl
/-- Which bytes of RES hold a value after a command's end. -/
@[simp] theorem State.complete_resHeld (u : OperandUse) (r : Option Word64) (s : State) :
    (s.complete u r).resHeld = if r.isSome && operandsHeld u s then 0xFF else 0x00 := by
  cases r <;> simp [State.complete]
/-- A free value is counted exactly when one was taken. -/
@[simp] theorem State.complete_draws (u : OperandUse) (r : Option Word64) (s : State) :
    (s.complete u r).draws = if r.isSome then s.draws else s.draws + 1 := by cases r <;> rfl

/-- The platform's reset keeps the host's own data. -/
@[simp] theorem State.resetCore_pending (s : State) : s.resetCore.pending = s.pending := rfl
@[simp] theorem State.resetCore_received (s : State) : s.resetCore.received = s.received := rfl
@[simp] theorem State.resetCore_draws (s : State) : s.resetCore.draws = s.draws := rfl

end Sys2Proof.Machine
end

