-- ==== Sys2Proof/Laws/PerInstr.lean ====
section
/-! SUPPORT. Statements about every command as syntax, one lemma a constructor. -/

namespace Sys2Proof.Laws.CommandFormat

/-- The encoded command is one well-formed byte whose fields are the instruction's ENG and FN, with Z = 000
(R60, R63). -/
def Statement (i : Instr) : Prop :=
  encode i = [encodeByte i] ∧ commandWellFormed (encodeByte i) = true ∧
    commandZ (encodeByte i) = 0 ∧ (commandEng (encodeByte i), commandFn (encodeByte i)) = commandFields i

theorem shl64 : Statement .shl64 := by unfold Statement; decide
theorem shrLogical64 : Statement .shrLogical64 := by unfold Statement; decide
theorem shrArith64 : Statement .shrArith64 := by unfold Statement; decide
theorem mulTrunc32 : Statement .mulTrunc32 := by unfold Statement; decide
theorem mulTrunc64 : Statement .mulTrunc64 := by unfold Statement; decide
theorem divU32 : Statement .divU32 := by unfold Statement; decide
theorem divU64 : Statement .divU64 := by unfold Statement; decide
theorem divS32 : Statement .divS32 := by unfold Statement; decide
theorem divS64 : Statement .divS64 := by unfold Statement; decide
theorem modU32 : Statement .modU32 := by unfold Statement; decide
theorem modU64 : Statement .modU64 := by unfold Statement; decide
theorem modS32 : Statement .modS32 := by unfold Statement; decide
theorem modS64 : Statement .modS64 := by unfold Statement; decide
theorem fdiv32 : Statement .fdiv32 := by unfold Statement; decide

end Sys2Proof.Laws.CommandFormat
end

