-- ==== Sys2Proof/Laws/Step.lean ====
section
/-! SUPPORT. What a command and a step can do, said once: every later proof cites these. -/

namespace Sys2Proof.Machine

/-- Every command completes: its functional result is put in RES by the shared end of a command. -/
theorem exec_eq_complete (i : Instr) (s : State) :
    exec i s = .next (s.complete (operandUse i) (execValue i s.opa s.opb)) := by
  cases i <;> rfl

/-- The command byte performed is the decoded command, or nothing for a reserved byte. -/
theorem performCommand_cases (c : Byte) (s : State) :
    (∃ i, decodeByte c = .ok i ∧
      performCommand c s = .next (s.complete (operandUse i) (execValue i s.opa s.opb))) ∨
    (∃ e, decodeByte c = .rejected e ∧ performCommand c s = .next s) := by
  unfold performCommand
  cases h : decodeByte c with
  | ok i => exact .inl ⟨i, rfl, exec_eq_complete i s⟩
  | rejected e => exact .inr ⟨e, rfl, rfl⟩

/-- A byte write of the host: a command at CMD, a plain byte write elsewhere. -/
theorem performWrite8_cases (off : Offset) (v : Byte) (s : State) :
    (off = cmdOffset ∧ performWrite8 off v s = performCommand v s) ∨
    (off ≠ cmdOffset ∧ performWrite8 off v s = .next (memWrite8 off v s)) := by
  unfold performWrite8
  by_cases h : off = cmdOffset
  · exact .inl ⟨h, if_pos h⟩
  · exact .inr ⟨h, if_neg h⟩

/-- A step with nothing pending is idle. -/
theorem step_idle (s : State) (h : s.pending = []) : step s = .next s := by
  unfold step; rw [h]

/-- A step performs the oldest pending action. -/
theorem step_cons (s : State) (act : HostAction) (rest : List HostAction)
    (h : s.pending = act :: rest) : step s = perform act (s.withPending rest) := by
  unfold step; rw [h]

/-- The same, for a state written with its pending actions. -/
@[simp] theorem step_withPending (s : State) (act : HostAction) (rest : List HostAction) :
    step (s.withPending (act :: rest)) = perform act (s.withPending rest) := rfl

end Sys2Proof.Machine
end

