-- ==== Sys2Proof/Laws/Termination.lean ====
section
/-! SUPPORT. Safe steps are among those whose termination R190 supports. -/

namespace Sys2Proof.Safety

open Sys2Proof.Machine

/-- A safe command has a defined result, so R190 supports that it completes. -/
theorem commandSafe_terminates (c : Byte) (s : State) (h : commandSafe c s = true) :
    commandTerminates c s = true := by
  unfold commandSafe at h
  unfold commandTerminates
  cases hd : decodeByte c with
  | ok i => rw [hd] at h; exact (Bool.and_eq_true_iff.mp h).2
  | rejected e => rfl

/-- The same for a byte write. -/
theorem writeSafe_terminates (off : Offset) (v : Byte) (s : State) (h : writeSafe off v s = true) :
    writeTerminates off v s = true := by
  unfold writeSafe at h
  unfold writeTerminates
  rcases Bool.or_eq_true_iff.mp h with h | h
  · simp [h]
  · simp [commandSafe_terminates v s h]

/-- The same for a step. -/
theorem stepSafe_terminates (s : State) (h : stepSafe s = true) : stepTerminates s = true := by
  unfold stepSafe at h
  unfold stepTerminates
  cases hp : s.pending with
  | nil => rfl
  | cons act rest =>
    rw [hp] at h
    cases act with
    | wr8 off v => exact writeSafe_terminates off v s h
    | wr16 off v => exact writeSafe_terminates off _ s h
    | rd8 | rd16 | copy | reset => rfl

/-- A property that implies another along single steps implies it along runs. -/
theorem holdsAlong_mono {p q : State → Bool} (hpq : ∀ s, p s = true → q s = true) :
    ∀ n s, holdsAlong p n s → holdsAlong q n s
  | 0, _, _ => trivial
  | n + 1, s, h => ⟨hpq s h.1, fun t ht => holdsAlong_mono hpq n t (h.2 t ht)⟩

/-- The same for a run. -/
theorem runSafe_terminates (n : Nat) (s : State) (h : runSafe n s) : runTerminates n s :=
  holdsAlong_mono stepSafe_terminates n s h

end Sys2Proof.Safety
end

