-- ==== Sys2Proof/Laws/Window.lean ====
section
/-! SUPPORT. Everything a host write can do: the byte written, the bytes left, and a write to CMD. -/

namespace Sys2Proof.Machine

/-- A byte written in a register is read back and holds a value. -/
theorem memWrite8_same (off : Offset) (v : Byte) (s : State) (h : off.toNat < 0x18) :
    memRead8 off (memWrite8 off v s) = v ∧ byteHeld off (memWrite8 off v s) = true := by
  unfold memWrite8 memRead8 byteHeld
  split_ifs with h1 h2 h3
  · exact ⟨byteOf_setByte_same _ _ _ (by omega), by
      rw [State.putOpa_opaHeld, getLsbD_heldMark _ _ _ (by omega)]; simp⟩
  · exact ⟨byteOf_setByte_same _ _ _ (by omega), by
      rw [State.putOpb_opbHeld, getLsbD_heldMark _ _ _ (by omega)]; simp⟩
  · exact ⟨byteOf_setByte_same _ _ _ (by omega), by
      rw [State.putRes_resHeld, getLsbD_heldMark _ _ _ (by omega)]; simp⟩
  · omega

/-- A host write leaves every other byte of the window and its mark. -/
theorem memWrite8_other (off o : Offset) (v : Byte) (s : State) (h : o ≠ off) :
    memRead8 o (memWrite8 off v s) = memRead8 o s ∧
      byteHeld o (memWrite8 off v s) = byteHeld o s := by
  have hn : o.toNat ≠ off.toNat := fun x => h (BitVec.eq_of_toNat_eq x)
  have mark : ∀ (m : BitVec 8) (i j : Nat), i ≠ j → j < 8 →
      (m ||| heldMark i).getLsbD j = m.getLsbD j := by
    intro m i j hij hj
    rw [getLsbD_heldMark _ _ _ hj]; simp [hij]
  unfold memWrite8 memRead8 byteHeld
  split_ifs <;> first
    | exact ⟨rfl, rfl⟩
    | exact ⟨byteOf_setByte_other _ _ _ _ (by omega) (by omega), mark _ _ _ (by omega) (by omega)⟩

/-- A host write changes an operand register only at that register's own offsets. -/
theorem memWrite8_operands (off : Offset) (v : Byte) (s : State) :
    (¬ off.toNat ≤ 0x07 → (memWrite8 off v s).opa = s.opa ∧ (memWrite8 off v s).opaHeld = s.opaHeld) ∧
    (¬ (0x08 ≤ off.toNat ∧ off.toNat ≤ 0x0F) →
      (memWrite8 off v s).opb = s.opb ∧ (memWrite8 off v s).opbHeld = s.opbHeld) := by
  unfold memWrite8
  split_ifs with h1 h2 h3
  · exact ⟨fun h => absurd h1 h, fun _ => ⟨rfl, rfl⟩⟩
  · exact ⟨fun _ => ⟨rfl, rfl⟩, fun h => absurd ⟨by omega, h2⟩ h⟩
  · exact ⟨fun _ => ⟨rfl, rfl⟩, fun _ => ⟨rfl, rfl⟩⟩
  · exact ⟨fun _ => ⟨rfl, rfl⟩, fun _ => ⟨rfl, rfl⟩⟩

/-- What a byte write that answers a next state has done: at CMD a command or nothing, elsewhere the plain write.
The host's own data stays. -/
theorem performWrite8_spec (off : Offset) (v : Byte) (s t : State) (h : performWrite8 off v s = .next t) :
    t.pending = s.pending ∧ t.received = s.received ∧
    ((off = cmdOffset ∧ ∃ i, decodeByte v = .ok i ∧
        t = s.complete (operandUse i) (execValue i s.opa s.opb)) ∨
      (off = cmdOffset ∧ t = s) ∨ (off ≠ cmdOffset ∧ t = memWrite8 off v s)) := by
  rcases performWrite8_cases off v s with ⟨ho, h1⟩ | ⟨ho, h1⟩
  · rw [h1] at h
    rcases performCommand_cases v s with ⟨i, hi, h2⟩ | ⟨e, _, h2⟩
    · rw [h2] at h
      injection h with h
      subst h
      exact ⟨by simp, by simp, .inl ⟨ho, i, hi, rfl⟩⟩
    · rw [h2] at h
      injection h with h
      subst h
      exact ⟨rfl, rfl, .inr (.inl ⟨ho, rfl⟩)⟩
  · rw [h1] at h
    injection h with h
    subst h
    exact ⟨by simp, by simp, .inr (.inr ⟨ho, rfl⟩)⟩

end Sys2Proof.Machine
end

