-- ==== Sys2Proof/Tests/Slice0.lean ====
section
/-! SUPPORT. Tests from the spec's own vectors (95_test_vectors.md, by id), and a witness for the hypotheses of every
statement in Certificates/Slice0/Obligations.lean. -/

namespace Sys2Proof.Tests

open Sys2Proof Sys2Proof.Machine Sys2Proof.Safety

/-- A state with these operands and result, every byte of them holding a value, and these pending actions. -/
def st (a b r : Word64) (p : List HostAction) : State :=
  { State.reset with opa := a, opb := b, res := r, opaHeld := 0xFF, opbHeld := 0xFF, resHeld := 0xFF, pending := p }

/-- RES after a command. -/
def resAfter (i : Instr) (a b : Word64) : Option Word64 :=
  match exec i (st a b 0x1122334455667788 []) with
  | .next t => some t.res
  | _ => none

/-- The state after a run. -/
def stateAfter (n : Nat) (s : State) : Option State :=
  match runSteps n s with
  | .next t => some t
  | _ => none

/-! ## WellFormed smoke: a byte each check refuses (R60, R63) -/

theorem test_wf_refuses_z : commandWellFormed 0x08 = false := by decide
theorem test_wf_refuses_shift_fn2 : commandWellFormed 0x04 = false := by decide
theorem test_wf_refuses_shift_kind3 : commandWellFormed 0x03 = false := by decide
theorem test_wf_refuses_multiply_fn2 : commandWellFormed 0x44 = false := by decide
theorem test_wf_refuses_multiply_fn1 : commandWellFormed 0x42 = false := by decide
theorem test_wf_refuses_float_fn : commandWellFormed 0xC1 = false := by decide
theorem test_wf_accepts : commandWellFormed 0x87 = true := by decide

/-! ## Decoding: every constructor by its word, written out from R62's binary column -/

theorem test_decode_shl64 : decodeByte 0b00000000#8 = .ok .shl64 := by decide
theorem test_decode_shrLogical64 : decodeByte 0b00000001#8 = .ok .shrLogical64 := by decide
theorem test_decode_shrArith64 : decodeByte 0b00000010#8 = .ok .shrArith64 := by decide
theorem test_decode_mulTrunc32 : decodeByte 0b01000000#8 = .ok .mulTrunc32 := by decide
theorem test_decode_mulTrunc64 : decodeByte 0b01000001#8 = .ok .mulTrunc64 := by decide
theorem test_decode_divU32 : decodeByte 0b10000000#8 = .ok .divU32 := by decide
theorem test_decode_divU64 : decodeByte 0b10000001#8 = .ok .divU64 := by decide
theorem test_decode_divS32 : decodeByte 0b10000010#8 = .ok .divS32 := by decide
theorem test_decode_divS64 : decodeByte 0b10000011#8 = .ok .divS64 := by decide
theorem test_decode_modU32 : decodeByte 0b10000100#8 = .ok .modU32 := by decide
theorem test_decode_modU64 : decodeByte 0b10000101#8 = .ok .modU64 := by decide
theorem test_decode_modS32 : decodeByte 0b10000110#8 = .ok .modS32 := by decide
theorem test_decode_modS64 : decodeByte 0b10000111#8 = .ok .modS64 := by decide
theorem test_decode_fdiv32 : decodeByte 0b11000000#8 = .ok .fdiv32 := by decide
theorem test_decode_reserved : decodeByte 0x03 = .rejected (.reservedCommand 0x03) := by decide
theorem test_decode_nothing : decode [] = .rejected .noCommand := by decide
theorem test_decode_table_word : decodeTableWord 8 0xC0 = some .fdiv32 := by decide

/-! ## Results: at most two vectors of 95_test_vectors.md per command, by id -/

-- H6, H49
theorem test_shl64_H6 : resAfter .shl64 0x0123456789ABCDEF 17 = some 0x8ACF13579BDE0000 := by decide
theorem test_shl64_H49 : resAfter .shl64 0x0123456789ABCDEF 0xFFFFFFFFFFFFFF04 = some 0x123456789ABCDEF0 := by decide
-- H24, H25
theorem test_shrLogical64_H24 : resAfter .shrLogical64 0xFEDCBA9876543210 17 = some 0x00007F6E5D4C3B2A := by decide
theorem test_shrLogical64_H25 : resAfter .shrLogical64 0x8000000000000000 63 = some 1 := by decide
-- H37, H42
theorem test_shrArith64_H37 : resAfter .shrArith64 0xFEDCBA9876543210 17 = some 0xFFFFFF6E5D4C3B2A := by decide
theorem test_shrArith64_H42 : resAfter .shrArith64 0x8000000000000000 63 = some 0xFFFFFFFFFFFFFFFF := by decide
-- W12 (with M1), M7 with other upper halves
theorem test_mulTrunc32_W12 : resAfter .mulTrunc32 0xFFFFFFFF 2 = some 0x00000000FFFFFFFE := by decide
theorem test_mulTrunc32_M7 : resAfter .mulTrunc32 0xAAAAAAAA12345678 0xBBBBBBBB9ABCDEF0 = some 0x242D2080 := by decide
-- M17, M21
theorem test_mulTrunc64_M17 : resAfter .mulTrunc64 0xFFFFFFFFFFFFFFFF 0xFFFFFFFFFFFFFFFF = some 1 := by decide
theorem test_mulTrunc64_M21 :
    resAfter .mulTrunc64 0x0123456789ABCDEF 0xFEDCBA9876543210 = some 0x2236D88FE5618CF0 := by decide
-- Q9, Q17
theorem test_divU32_Q9 : resAfter .divU32 0x12345678 0x1234 = some 0x10004 := by decide
theorem test_divU32_Q17 : resAfter .divU32 0x00000001 0xFFFFFFFF00000000 = some 0x00000000FFFFFFFF := by decide
-- Q30, Q39
theorem test_divU64_Q30 : resAfter .divU64 0xFEDCBA9876543210 0x0123456789ABCDEF = some 0xE0 := by decide
theorem test_divU64_Q39 : resAfter .divU64 0x8000000000000000 0 = some 0xFFFFFFFFFFFFFFFF := by decide
-- W13 (with Z2), Z28
theorem test_divS32_W13 : resAfter .divS32 0xFFFFFFFFFFFFFFF9 3 = some 0x00000000FFFFFFFE := by decide
theorem test_divS32_Z28 : resAfter .divS32 0xFFFFFFFF 0 = some 1 := by decide
-- Z37, Z43
theorem test_divS64_Z37 : resAfter .divS64 0x8000000000000000 0xFFFFFFFFFFFFFFFF = some 0x8000000000000000 := by decide
theorem test_divS64_Z43 : resAfter .divS64 0xFFFFFF172B5AF000 7 = some 0xFFFFFFDEBD0CFDB7 := by decide
-- Q5, Q9
theorem test_modU32_Q5 : resAfter .modU32 0xFFFFFFFF 0x80000001 = some 0x7FFFFFFE := by decide
theorem test_modU32_Q9 : resAfter .modU32 0x12345678 0x1234 = some 0xDA8 := by decide
-- Q21, Q30
theorem test_modU64_Q21 : resAfter .modU64 0xFFFFFFFFFFFFFFFF 0x8000000000000000 = some 0x7FFFFFFFFFFFFFFF := by decide
theorem test_modU64_Q30 : resAfter .modU64 0xFEDCBA9876543210 0x0123456789ABCDEF = some 0xF0 := by decide
-- Z3, Z18
theorem test_modS32_Z3 : resAfter .modS32 0x00000007 0xFFFFFFFD = some 1 := by decide
theorem test_modS32_Z18 : resAfter .modS32 0x80000001 0x80000000 = some 0x0000000080000001 := by decide
-- Z44, Z50
theorem test_modS64_Z44 : resAfter .modS64 0x000000E8D4A51000 0xFFFFFFFFFFFFFFF9 = some 1 := by decide
theorem test_modS64_Z50 : resAfter .modS64 0x8000000000000000 3 = some 0xFFFFFFFFFFFFFFFE := by decide
-- F9, F21
theorem test_fdiv32_F9 : resAfter .fdiv32 0x3F800000 0x40400000 = some 0x3EAAAAAB := by decide
theorem test_fdiv32_F21 : resAfter .fdiv32 0xBF800000 0x80000000 = some 0xFF800000 := by decide

/-! ## The window: W4, W5, W7, W10 -/

theorem test_window_W4 : (stateAfter 4 (st 0 0 0 [.wr16 0x10 0x1234, .rd8 0x10, .rd8 0x11])).map (·.received) =
    some [0x12, 0x34] := by decide
theorem test_window_W5 : (stateAfter 1 (st 6 3 2 [.rd8 0x18])).map (fun t => (t.received, t.res)) =
    some ([0x00], 2) := by decide
theorem test_window_W7 : (stateAfter 1 (st 6 3 2 [.wr8 0x1F 0xAA])).map (fun t => (t.opa, t.opb, t.res)) =
    some (6, 3, 2) := by decide
theorem test_window_W8 : (stateAfter 2 (st 6 3 0 [.wr16 0x17 0x8055])).map (·.res) = some 2 := by decide
theorem test_window_W10 : (stateAfter 1 (st 6 3 2 [.wr8 0x00 0x09])).map (fun t => (t.opa, t.res)) =
    some (9, 2) := by decide

/-! ## Witnesses: for each statement with hypotheses, a state and operands that meet them together -/

theorem witness_CommandCodesDecode : decodeByte 0x86 = .ok .modS32 ∧ decodeByte 0x86 = .ok .modS32 := by decide
theorem witness_DecodeEncodeAgree : decode [0xC0, 0x05] = .ok (.fdiv32, [0x05]) := by decide
theorem witness_FieldRulesAdmitExactlyTheMap :
    commandWellFormed 0x87 = true ∧ decodeByte 0x87 = .ok .modS64 := by decide
theorem witness_ReservedBytesDoNothing : ReservedByte 0x08 ∧ ReservedByte 0x03 ∧ ReservedByte 0x07 ∧
    ReservedByte 0x42 ∧ ReservedByte 0x47 ∧ ReservedByte 0xC1 ∧ ReservedByte 0xC7 := by
  unfold ReservedByte; decide
theorem witness_StepRunsDecodedCommand :
    decodeByte 0x80 = .ok .divU32 ∧ decodeTableWord 8 0x80 = some .divU32 := by decide
theorem witness_EveryStepAnswersNext :
    stepTerminates (st 5 1 0 [.wr8 0x18 0x84]) = true ∧ stepTerminates (st 1 63 0 [.wr8 0x18 0x00]) = true ∧
      stepTerminates (st 5 0 0 [.wr8 0x18 0x80]) = true ∧ stepTerminates (st 5 0 0 [.wr8 0x18 0x03]) = true := by decide
theorem witness_StepTakesOneAccess :
    (st 5 1 0 [.wr8 0x18 0x84]).pending ≠ [] ∧ stepTerminates (st 5 1 0 [.wr8 0x18 0x84]) = true := by decide
theorem witness_PendingActionsComplete :
    runTerminates (stepsLeft (st 6 3 2 [.wr8 0x18 0x84, .rd8 0x10])) (st 6 3 2 [.wr8 0x18 0x84, .rd8 0x10]) ∧
      1 < stepsLeft (st 6 3 2 [.wr8 0x18 0x84, .rd8 0x10]) := by
  refine ⟨⟨by decide, fun t ht => ?_⟩, by decide⟩
  have h : step (st 6 3 2 [.wr8 0x18 0x84, .rd8 0x10]) = .next (st 6 3 0 [.rd8 0x10]) := rfl
  rw [h] at ht
  injection ht with ht
  subst ht
  exact ⟨by decide, fun _ _ => trivial⟩
theorem witness_ResetLeavesNoByteHeld : (0x17 : Offset).toNat < 0x18 ∧ commandTerminates 0x84 (st 5 1 0 []) = true := by
  decide
/-- R190 supports no claim of termination for a modulo by zero or a shift by 64. -/
theorem test_undefined_results_not_claimed :
    stepTerminates (st 5 0 0 [.wr8 0x18 0x84]) = false ∧ stepTerminates (st 5 0 0 [.wr8 0x18 0x87]) = false ∧
      stepTerminates (st 5 64 0 [.wr8 0x18 0x00]) = false ∧
      stepTerminates (st 5 64 0 [.wr16 0x18 0x0001]) = false := by decide
theorem witness_UnwrittenOperandsKept :
    UnwrittenOperandsAsReset (State.reset.withPending [.wr8 0x00 5]) ∧
      step (State.reset.withPending [.wr8 0x00 5]) = .next (State.reset.putOpa 5 0x01) :=
  ⟨fun _ _ _ => rfl, by rfl⟩
theorem witness_OperandsChangedOnlyByHost_opa :
    step (st 6 3 2 [.wr8 0x07 1]) = .next (st 0x0100000000000006 3 2 []) ∧
      (st 0x0100000000000006 3 2 []).opa ≠ (st 6 3 2 [.wr8 0x07 1]).opa := ⟨rfl, by decide⟩
theorem witness_OperandsChangedOnlyByHost_opb :
    step (st 6 3 2 [.wr8 0x08 1]) = .next (st 6 1 2 []) ∧
      (st 6 1 2 []).opb ≠ (st 6 3 2 [.wr8 0x08 1]).opb := ⟨rfl, by decide⟩
theorem witness_ResChangedOnlyByCommandOrHost :
    step (st 6 3 0 [.wr8 0x18 0x40]) = .next (st 6 3 18 []) ∧
      (st 6 3 18 []).res ≠ (st 6 3 0 [.wr8 0x18 0x40]).res := ⟨rfl, by decide⟩
theorem witness_HostWriteChangesOneByte :
    (0x00 : Offset).toNat < 0x18 ∧ (0x17 : Offset).toNat < 0x18 ∧ 0x18 < (0x19 : Offset).toNat ∧
      (0x16 : Offset) ≠ 0x17 := by decide
theorem witness_HostReadAnswersByte :
    (0x07 : Offset).toNat ≤ 0x07 ∧ (0x08 ≤ (0x08 : Offset).toNat ∧ (0x08 : Offset).toNat ≤ 0x0F) ∧
    (0x10 ≤ (0x17 : Offset).toNat ∧ (0x17 : Offset).toNat ≤ 0x17) ∧ 0x18 ≤ (0x18 : Offset).toNat := by decide
theorem witness_SixteenBitIsTwoByteAccesses : (0x1E : Offset) ≠ 0x1F := by decide
theorem witness_SixteenBitAccessAtEdges : decodeByte ((0x8055 : Word16).extractLsb' 8 8) = .ok .divU32 := by decide
theorem witness_WindowSitsAtCoreBase :
    (31 < 32) ∧ (Config.coreBase + 32 < Config.coreBase ∨ Config.coreBase + 32 ≤ Config.coreBase + 32) :=
  ⟨by decide, .inr (Nat.le_refl _)⟩
theorem witness_CommandsChangeOnlyRes :
    exec .mulTrunc32 (st 6 3 2 []) = .next (st 6 3 18 []) := rfl
theorem witness_NarrowResultsZeroExtended :
    operandUse .divS32 = .narrow ∧ resultDefined .divS32 (st 0xFFFFFFF9 3 2 []) = true := by decide
theorem witness_ResHeldAfterCommand :
    exec .mulTrunc32 (st 6 3 2 []) = .next (st 6 3 18 []) ∧
    (operandsHeld (operandUse .mulTrunc32) (st 6 3 2 []) = true ∧ resultDefined .mulTrunc32 (st 6 3 2 []) = true) :=
  ⟨rfl, by decide⟩
theorem witness_ResHeldAfterCommand_unspecified :
    exec .modU64 (st 6 0 2 []) =
      .next { st 6 0 2 [] with res := Config.freeValue 0, resHeld := 0, draws := 1 } ∧
    resultDefined .modU64 (st 6 0 2 []) = false ∧
    operandsHeld (operandUse .modU64) State.reset = false := ⟨rfl, by decide, by decide⟩
theorem witness_CommandsArePure :
    operandBitsA .divU32 (st 0x100000006 3 2 []).opa = operandBitsA .divU32 (st 6 0x500000003 7 []).opa ∧
    operandBitsB .divU32 (st 0x100000006 3 2 []).opb = operandBitsB .divU32 (st 6 0x500000003 7 []).opb ∧
    resultDefined .divU32 (st 0x100000006 3 2 []) = true := by decide
theorem witness_CommandsAreIdempotent :
    resultDefined .mulTrunc32 (st 6 3 2 []) = true ∧ exec .mulTrunc32 (st 6 3 2 []) = .next (st 6 3 18 []) :=
  ⟨by decide, rfl⟩

/-- Reset with two host actions pending. -/
def safeS : State := State.reset.withPending [.wr8 0x00 6, .rd8 0x00]
/-- The same with another value in the bytes of OPA that hold none. -/
def safeT : State := { safeS with opa := 0xABCD }

theorem safeS_agrees_safeT : AgreeOnHeld safeS safeT :=
  ⟨rfl, rfl, rfl, rfl, rfl, rfl, by decide⟩
theorem witness_SafeStepIgnoresUnheldBytes : AgreeOnHeld safeS safeT ∧ stepSafe safeS = true :=
  ⟨safeS_agrees_safeT, by decide⟩
theorem witness_SafeRunsIgnoreResetContents : AgreeOnHeld safeS safeT ∧ runSafe 2 safeS := by
  refine ⟨safeS_agrees_safeT, by decide, fun t ht => ?_⟩
  have h : step safeS = .next ((State.reset.putOpa 6 0x01).withPending [.rd8 0x00]) := rfl
  rw [h] at ht
  injection ht with ht
  subst ht
  exact ⟨by decide, fun _ _ => trivial⟩
theorem witness_DefinedCommandsTerminate :
    operandsHeld (operandUse .modU32) (st 100 7 0 []) = true ∧
      execValue .modU32 (st 100 7 0 []).opa (st 100 7 0 []).opb = some 2 := by decide
theorem witness_SafeStepsTerminate_step :
    stepSafe (st 100 7 0 [.wr8 0x18 0x84]) = true ∧ (st 100 7 0 [.wr8 0x18 0x84]).pending ≠ [] := by decide
theorem witness_SafeStepsTerminate_run :
    runSafe (stepsLeft safeS) safeS ∧ runSafe (stepsLeft (st 1 63 0 [.wr8 0x18 0x00])) (st 1 63 0 [.wr8 0x18 0x00]) :=
  ⟨witness_SafeRunsIgnoreResetContents.2, by decide, fun _ _ => trivial⟩
/-- The inputs R190 excludes are not safe: a modulo by zero and a shift by 64. -/
theorem test_undefined_results_not_safe :
    stepSafe (st 5 0 0 [.wr8 0x18 0x84]) = false ∧ stepSafe (st 5 0 0 [.wr8 0x18 0x87]) = false ∧
      stepSafe (st 5 64 0 [.wr8 0x18 0x00]) = false := by decide
theorem witness_CallDeliversExec :
    execValue .divS32 0xFFFFFFF9 3 = some 0xFFFFFFFE ∧ execValue .shl64 1 63 = some 0x8000000000000000 := by decide

theorem witness_shift_counts : (st 5 0 0 []).opb.toNat % 256 < 64 ∧ (st 5 63 0 []).opb.toNat % 256 < 64 := by decide
theorem witness_Shl64Result : (st 5 63 0 []).opb.toNat % 256 < 64 := by decide
theorem witness_ShrLogical64Result : (st 5 63 0 []).opb.toNat % 256 < 64 := by decide
theorem witness_ShrArith64Result : (st 5 63 0 []).opb.toNat % 256 < 64 := by decide
theorem witness_ShiftBy64OrMoreUnspecified :
    64 ≤ (st 5 64 0 []).opb.toNat % 256 ∧ 64 ≤ (st 5 0xFFF 0 []).opb.toNat % 256 := by decide
theorem witness_ShiftLaws : (60 : Byte).toNat + (3 : Byte).toNat < 64 ∧ (63 : Byte).toNat < 64 ∧
    (0x7FFFFFFFFFFFFFFF : Word64).getLsbD 63 = false ∧ (0x8000000000000000 : Word64).getLsbD 63 = true := by decide
theorem witness_BarrelShifterMeetsContract : (63 : Byte).toNat < 64 := by decide
theorem witness_MultiplyLaws : (32 = 32 ∨ 32 = 64) ∧ (64 = 32 ∨ 64 = 64) := by decide

theorem witness_DivU32Result : (st 100 0x500000001 0 []).opb.toNat % 2 ^ 32 ≠ 0 ∧
    (st 100 0x500000000 0 []).opb.toNat % 2 ^ 32 = 0 := by decide
theorem witness_DivU64Result : (st 100 0x500000000 0 []).opb ≠ 0 ∧ (st 100 0 0 []).opb = 0 := by decide
theorem witness_DivS32Result : lowHalf (st 0x80000000 0xFFFFFFFF 0 []).opb ≠ 0 ∧
    lowHalf (st 5 0x500000000 0 []).opb = 0 := by decide
theorem witness_DivS64Result : (st 0x8000000000000000 0xFFFFFFFFFFFFFFFF 0 []).opb ≠ 0 ∧
    (st 5 0 0 []).opb = 0 := by decide
theorem witness_ModU32Result : (st 100 7 0 []).opb.toNat % 2 ^ 32 ≠ 0 := by decide
theorem witness_ModU64Result : (st 100 0x500000000 0 []).opb ≠ 0 := by decide
theorem witness_ModS32Result : lowHalf (st 0x80000000 0xFFFFFFFF 0 []).opb ≠ 0 := by decide
theorem witness_ModS64Result : (st 0x8000000000000000 0xFFFFFFFFFFFFFFFF 0 []).opb ≠ 0 := by decide
theorem witness_ModuloByZeroUnspecified : lowHalf (st 5 0x500000000 0 []).opb = 0 ∧ (st 5 0 0 []).opb = 0 := by decide
theorem witness_QuotientRemainderIdentity : lowHalf (st 0x80000000 0xFFFFFFFF 0 []).opb ≠ 0 ∧
    (st 0x80000000 0xFFFFFFFF 0 []).opb ≠ 0 := by decide
theorem witness_RestoringDivisionMeetsContract : (7 : Word32) ≠ 0 := by decide
theorem witness_NormalisedModuloMeetsContract : (0x8000000000000000 : Word64) ≠ 0 := by decide

theorem witness_FdivPrecheckResult :
    floatExp (lowHalf (st 0x00000001 0x807FFFFF 0 []).opb) = 0 ∧
      floatExp (lowHalf (st 0x00000001 0x807FFFFF 0 []).opa) = 0 := by decide
theorem witness_FdivPrecheckResult_nan :
    floatExp (lowHalf (st 0xFFC00001 0 0 []).opb) = 0 ∧ isNaN (lowHalf (st 0xFFC00001 0 0 []).opa) = true := by decide
theorem witness_FdivPrecheckResult_infinity :
    floatExp (lowHalf (st 0xFF800000 0 0 []).opb) = 0 ∧
      (floatExp (lowHalf (st 0xFF800000 0 0 []).opa) ≠ 0 ∧ isNaN (lowHalf (st 0xFF800000 0 0 []).opa) = false) := by
  decide
theorem witness_FdivFlushAndOverflow_flush :
    floatExp (lowHalf (st 0x807FFFFF 0xBF800000 0 []).opb) ≠ 0 ∧
      floatExp (lowHalf (st 0x807FFFFF 0xBF800000 0 []).opa) = 0 := by decide
-- F53: e = 0
theorem witness_FdivFlushAndOverflow_underflow :
    floatExp (lowHalf (st 0x00800000 0x40000000 0 []).opb) ≠ 0 ∧
      (floatExp (lowHalf (st 0x00800000 0x40000000 0 []).opa) ≠ 0 ∧
        fdivExponent (lowHalf (st 0x00800000 0x40000000 0 []).opa) (lowHalf (st 0x00800000 0x40000000 0 []).opb) < 1) := by
  decide
-- F52: e = 255
theorem witness_FdivFlushAndOverflow_overflow :
    floatExp (lowHalf (st 0xFF7FFFFF 0x3F000000 0 []).opb) ≠ 0 ∧
      (floatExp (lowHalf (st 0xFF7FFFFF 0x3F000000 0 []).opa) ≠ 0 ∧
        255 ≤ fdivExponent (lowHalf (st 0xFF7FFFFF 0x3F000000 0 []).opa) (lowHalf (st 0xFF7FFFFF 0x3F000000 0 []).opb)) := by
  decide
-- F9: e = 125
theorem witness_FdivCorrectlyRounded :
    floatExp (lowHalf (st 0x3F800000 0x40400000 0 []).opa) ≠ 0 ∧
    floatExp (lowHalf (st 0x3F800000 0x40400000 0 []).opb) ≠ 0 ∧
    (125 : Int) = ((floatExp (lowHalf (st 0x3F800000 0x40400000 0 []).opa)).toNat : Int) -
      (floatExp (lowHalf (st 0x3F800000 0x40400000 0 []).opb)).toNat +
      (if floatMant (lowHalf (st 0x3F800000 0x40400000 0 []).opa) <
        floatMant (lowHalf (st 0x3F800000 0x40400000 0 []).opb) then 126 else 127) ∧
    (1 : Int) ≤ 125 ∧ (125 : Int) ≤ 254 := by decide
theorem witness_FdivResultClasses :
    exec .fdiv32 (st 0x3F800000 0x40400000 0 []) = .next (st 0x3F800000 0x40400000 0x3EAAAAAB []) := rfl
-- F2: 32.0 / 8.0
theorem witness_FdivPowersOfTwo :
    floatExp (lowHalf (st 0x42000000 0x41000000 0 []).opa) ≠ 0 ∧
    floatExp (lowHalf (st 0x42000000 0x41000000 0 []).opb) ≠ 0 ∧
    floatFrac (lowHalf (st 0x42000000 0x41000000 0 []).opa) = 0 ∧
    floatFrac (lowHalf (st 0x42000000 0x41000000 0 []).opb) = 0 ∧
    1 ≤ ((floatExp (lowHalf (st 0x42000000 0x41000000 0 []).opa)).toNat : Int) -
      (floatExp (lowHalf (st 0x42000000 0x41000000 0 []).opb)).toNat + 127 ∧
    ((floatExp (lowHalf (st 0x42000000 0x41000000 0 []).opa)).toNat : Int) -
      (floatExp (lowHalf (st 0x42000000 0x41000000 0 []).opb)).toNat + 127 ≤ 254 := by decide

/-! ## The host's question: each row runs as the first instruction after reset -/

theorem test_first_instruction_after_reset :
    step (State.reset.withFetchWord 8 0x40) = .next (State.reset.putRes 0 0x00) := rfl

end Sys2Proof.Tests
end

/-! # Proofs about the scope of the CORE (00_scope.md): what a result depends on, and the use sequence -/

namespace Sys2Proof.Proofs

open Sys2Proof.Machine Sys2Proof.Safety

/-! ## A result depends on the operation and the operand bits R24 names -/

@[simp] theorem lowHalf_setWidth_lowHalf (a : Word64) : lowHalf ((lowHalf a).setWidth 64) = lowHalf a := by
  simp [lowHalf]

@[simp] theorem shiftCount_setWidth_shiftCount (b : Word64) :
    shiftCount ((shiftCount b).setWidth 64) = shiftCount b := by
  simp [shiftCount]

/-- An operation reads nothing but the operand bits R24 names for it. -/
theorem execValue_operandBits (i : Instr) (a b : Word64) :
    execValue i (operandBitsA i a) (operandBitsB i b) = execValue i a b := by
  cases i <;> simp [execValue, operandBitsA, operandBitsB, operandUse]

theorem execValue_congr {i : Instr} {a a' b b' : Word64} (ha : operandBitsA i a = operandBitsA i a')
    (hb : operandBitsB i b = operandBitsB i b') : execValue i a b = execValue i a' b' := by
  rw [← execValue_operandBits i a b, ha, hb, execValue_operandBits]

/-- Where the spec gives a result, a command ends by putting it in RES (R23). -/
theorem exec_of_execValue (i : Instr) (s : State) {v : Word64} (h : execValue i s.opa s.opb = some v) :
    exec i s = .next (s.putRes v (if operandsHeld (operandUse i) s then 0xFF else 0x00)) := by
  rw [exec_eq_complete, h]; rfl

/-- Settles O26: both commands put the same value in RES, since they read the same operand bits. -/
theorem commandsArePure : Obligations.CommandsArePure := by
  intro i s t ha hb hdef
  obtain ⟨v, hs⟩ := Option.isSome_iff_exists.mp hdef
  have ht : execValue i t.opa t.opb = some v := (execValue_congr ha hb).symm.trans hs
  exact ⟨_, _, exec_of_execValue _ _ hs, exec_of_execValue _ _ ht, rfl⟩

/-- Settles O27: the command leaves OPA, OPB and their marks, so the second time it puts the same value and
marks in RES. -/
theorem commandsAreIdempotent : Obligations.CommandsAreIdempotent := by
  intro i s t hdef hst
  obtain ⟨v, hs⟩ := Option.isSome_iff_exists.mp hdef
  rw [exec_of_execValue _ _ hs] at hst
  injection hst with hst
  subst hst
  exact exec_of_execValue _ _ hs

/-! ## Runs -/

theorem runSteps_zero (s : State) : runSteps 0 s = .next s := rfl

theorem runSteps_succ {s t : State} (h : step s = .next t) (n : Nat) : runSteps (n + 1) s = runSteps n t := by
  have hc : core.step s = .next t := h
  simp only [runSteps, Host.Core.run, hc]; rfl

theorem runSteps_succ_refused {s : State} {r : Refusal} (h : step s = .refused r) (n : Nat) :
    runSteps (n + 1) s = .refused r := by
  have hc : core.step s = .refused r := h
  simp only [runSteps, Host.Core.run, hc]; rfl

/-- A run goes on from where a shorter run ended. -/
theorem runSteps_add {m : Nat} {s t : State} (h : runSteps m s = .next t) (n : Nat) :
    runSteps (m + n) s = runSteps n t := by
  induction m generalizing s with
  | zero =>
    rw [runSteps_zero] at h
    injection h with h
    rw [h, Nat.zero_add]
  | succ m ih =>
    cases hs : step s with
    | next s' =>
      rw [runSteps_succ hs] at h
      rw [Nat.add_right_comm, runSteps_succ hs, ih h]
    | fault r => exact nomatch r
    | refused r =>
      rw [runSteps_succ_refused hs] at h
      cases h

/-! ## Byte writes to the registers -/

/-- Bytes 0 to n-1 of `v` in the register `r`, whose other bytes stay. -/
def loadBytes (v r : Word64) : Nat → Word64
  | 0 => r
  | n + 1 => setByte (loadBytes v r n) n (byteOf v n)

/-- The marks `m` with those of bytes 0 to n-1 added. -/
def markBytes (m : BitVec 8) : Nat → BitVec 8
  | 0 => m
  | n + 1 => markBytes m n ||| heldMark n

/-- The state after the byte writes of `writeBytes base n v`. -/
def writeWindow (base : Nat) (v : Word64) (s : State) : Nat → State
  | 0 => s
  | n + 1 => memWrite8 (BitVec.ofNat 5 (base + n)) (byteOf v n) (writeWindow base v s n)

theorem getLsbD_loadBytes (v r : Word64) (n k : Nat) (hk : k < 64) :
    (loadBytes v r n).getLsbD k = if k < 8 * n then v.getLsbD k else r.getLsbD k := by
  induction n with
  | zero => simp [loadBytes]
  | succ n ih =>
    rw [loadBytes, getLsbD_setByte _ _ _ _ hk, ih]
    by_cases hn : 8 * n ≤ k ∧ k < 8 * n + 8
    · obtain ⟨h1, h2⟩ := hn
      rw [if_pos ⟨h1, h2⟩, if_pos (by omega), getLsbD_byteOf, Nat.add_sub_cancel' h1]
      simp [show k - 8 * n < 8 by omega]
    · rw [if_neg hn]
      exact if_congr (by omega) rfl rfl

theorem loadBytes_eight (v r : Word64) : loadBytes v r 8 = v := by
  apply BitVec.eq_of_getLsbD_eq
  intro k hk
  rw [getLsbD_loadBytes _ _ _ _ hk, if_pos hk]

theorem lowHalf_loadBytes_four (v r : Word64) : lowHalf (loadBytes v r 4) = lowHalf v := by
  apply BitVec.eq_of_getLsbD_eq
  intro k hk
  simp [lowHalf, getLsbD_loadBytes _ _ _ _ (show k < 64 by omega), hk]

theorem shiftCount_loadBytes_one (v r : Word64) : shiftCount (loadBytes v r 1) = shiftCount v := by
  apply BitVec.eq_of_getLsbD_eq
  intro k hk
  simp [shiftCount, getLsbD_loadBytes _ _ _ _ (show k < 64 by omega), hk]

/-- Marking bytes adds the marks of bytes 0 to n-1 and no others. -/
theorem markBytes_eq_or (m : BitVec 8) (n : Nat) : markBytes m n = m ||| markBytes 0#8 n := by
  induction n with
  | zero => simp [markBytes]
  | succ n ih => rw [markBytes, ih, BitVec.or_assoc, ← markBytes]

theorem markBytes_and_markBytes_zero (m : BitVec 8) (n : Nat) :
    markBytes m n &&& markBytes 0#8 n = markBytes 0#8 n := by
  rw [markBytes_eq_or]
  apply BitVec.eq_of_getLsbD_eq
  intro j _
  simpa using Or.inr

theorem toNat_offset {k : Nat} (hk : k < 32) : (BitVec.ofNat 5 k).toNat = k := by
  rw [BitVec.toNat_ofNat, Nat.mod_eq_of_lt hk]

/-- Byte writes from offset 0x00 load OPA and nothing else (R41, R45). -/
theorem writeWindow_opa (v : Word64) (s : State) {n : Nat} (hn : n ≤ 8) :
    writeWindow 0x00 v s n = s.putOpa (loadBytes v s.opa n) (markBytes s.opaHeld n) := by
  induction n with
  | zero => rfl
  | succ n ih =>
    have hoff : (BitVec.ofNat 5 (0x00 + n)).toNat = 0 + n := toNat_offset (by omega)
    rw [writeWindow, ih (by omega), memWrite8, hoff, if_pos (by omega), Nat.zero_add]
    rfl

/-- Byte writes from offset 0x08 load OPB and nothing else (R41, R45). -/
theorem writeWindow_opb (v : Word64) (s : State) {n : Nat} (hn : n ≤ 8) :
    writeWindow 0x08 v s n = s.putOpb (loadBytes v s.opb n) (markBytes s.opbHeld n) := by
  induction n with
  | zero => rfl
  | succ n ih =>
    have hoff : (BitVec.ofNat 5 (0x08 + n)).toNat = 8 + n := toNat_offset (by omega)
    rw [writeWindow, ih (by omega), memWrite8, hoff, if_neg (by omega), if_pos (by omega), Nat.add_sub_cancel_left]
    rfl

theorem writeBytes_succ (base n : Nat) (v : Word64) :
    writeBytes base (n + 1) v = writeBytes base n v ++ [.wr8 (BitVec.ofNat 5 (base + n)) (byteOf v n)] := by
  simp [writeBytes, List.range_succ]

theorem step_wr8 {off : Offset} (h : off ≠ cmdOffset) (v : Byte) (s : State) (rest : List HostAction) :
    step (s.withPending (.wr8 off v :: rest)) = .next ((memWrite8 off v s).withPending rest) := by
  rw [step_withPending, perform, performWrite8, if_neg h, memWrite8_withPending]

/-- Byte writes below CMD are performed one a step (R45, R51). -/
theorem runSteps_writeBytes {base n : Nat} (h : base + n ≤ 0x18) (v : Word64) (s : State) (rest : List HostAction) :
    runSteps n (s.withPending (writeBytes base n v ++ rest)) = .next ((writeWindow base v s n).withPending rest) := by
  induction n generalizing rest with
  | zero => rfl
  | succ n ih =>
    have hoff : BitVec.ofNat 5 (base + n) ≠ cmdOffset := by
      intro he
      have hnat : base + n = 0x18 := (toNat_offset (by omega)).symm.trans (congrArg BitVec.toNat he)
      omega
    rw [writeBytes_succ, List.append_assoc, runSteps_add (ih (by omega) _), List.singleton_append,
      runSteps_succ (step_wr8 hoff _ _ _), runSteps_zero]
    rfl

/-! ## Byte reads of the window -/

/-- The state after the byte reads of `readBytes base n`. -/
def readWindow (base : Nat) (s : State) : Nat → State
  | 0 => s
  | n + 1 => performRead8 (BitVec.ofNat 5 (base + n)) (readWindow base s n)

@[simp] theorem readWindow_res (base : Nat) (s : State) (n : Nat) : (readWindow base s n).res = s.res := by
  induction n with
  | zero => rfl
  | succ n ih => exact ih

@[simp] theorem readWindow_resHeld (base : Nat) (s : State) (n : Nat) :
    (readWindow base s n).resHeld = s.resHeld := by
  induction n with
  | zero => rfl
  | succ n ih => exact ih

@[simp] theorem memRead8_readWindow (off : Offset) (base : Nat) (s : State) (n : Nat) :
    memRead8 off (readWindow base s n) = memRead8 off s := by
  induction n with
  | zero => rfl
  | succ n ih => exact ih

/-- The host receives the bytes read, the newest first. -/
theorem readWindow_received (base : Nat) (s : State) (n : Nat) :
    (readWindow base s n).received =
      ((List.range n).map (fun i => memRead8 (BitVec.ofNat 5 (base + i)) s)).reverse ++ s.received := by
  induction n with
  | zero => rfl
  | succ n ih => simp [readWindow, performRead8, ih, List.range_succ]

/-- Offsets 0x10 to 0x17 are the bytes of RES (R41). -/
theorem memRead8_res {i : Nat} (hi : i < 8) (s : State) :
    memRead8 (BitVec.ofNat 5 (0x10 + i)) s = byteOf s.res i := by
  have hoff : (BitVec.ofNat 5 (0x10 + i)).toNat = 16 + i := toNat_offset (by omega)
  rw [memRead8, hoff, if_neg (by omega), if_neg (by omega), if_pos (by omega), Nat.add_sub_cancel_left]

theorem readBytes_succ (base n : Nat) :
    readBytes base (n + 1) = readBytes base n ++ [.rd8 (BitVec.ofNat 5 (base + n))] := by
  simp [readBytes, List.range_succ]

theorem step_rd8 (off : Offset) (s : State) (rest : List HostAction) :
    step (s.withPending (.rd8 off :: rest)) = .next ((performRead8 off s).withPending rest) := rfl

/-- Byte reads are performed one a step (R44, R51). -/
theorem runSteps_readBytes (base n : Nat) (s : State) (rest : List HostAction) :
    runSteps n (s.withPending (readBytes base n ++ rest)) = .next ((readWindow base s n).withPending rest) := by
  induction n generalizing rest with
  | zero => rfl
  | succ n ih =>
    rw [readBytes_succ, List.append_assoc, runSteps_add (ih _), List.singleton_append,
      runSteps_succ (step_rd8 _ _ _), runSteps_zero]
    rfl

/-- Reads from offset 0x10 deliver the bytes of RES, the low byte first (R44, R182). -/
theorem readWindow_res_received (s : State) {n : Nat} (hn : n ≤ 8) :
    (readWindow 0x10 s n).received = ((List.range n).map (byteOf s.res)).reverse ++ s.received := by
  rw [readWindow_received, List.map_congr_left]
  intro i hi
  exact memRead8_res (Nat.lt_of_lt_of_le (List.mem_range.mp hi) hn) s

/-! ## The use sequence of R70 and R182 -/

theorem decodeByte_encodeByte (i : Instr) : decodeByte (encodeByte i) = .ok i := by
  cases i <;> rfl

/-- The write of a command's byte to CMD runs the command (R27, R61, R68). -/
theorem step_command (i : Instr) (s : State) (rest : List HostAction) :
    step (s.withPending (command i ++ rest)) = exec i (s.withPending rest) := by
  rw [command, List.singleton_append, step_withPending, perform, performWrite8, if_pos rfl, performCommand,
    decodeByte_encodeByte]

/-- How many bytes of OPA the use sequence loads: the bytes the command reads (R24, R70). -/
def operandBytesA : OperandUse → Nat
  | .narrow => 4
  | .shift | .wide => 8

/-- How many bytes of OPB the use sequence loads: the bytes the command reads (R24, R70). -/
def operandBytesB : OperandUse → Nat
  | .shift => 1
  | .narrow => 4
  | .wide => 8

theorem bytesReadA_eq_markBytes (u : OperandUse) : bytesReadA u = markBytes 0#8 (operandBytesA u) := by
  cases u <;> rfl

theorem bytesReadB_eq_markBytes (u : OperandUse) : bytesReadB u = markBytes 0#8 (operandBytesB u) := by
  cases u <;> rfl

theorem operandBytesA_le (u : OperandUse) : operandBytesA u ≤ 8 := by cases u <;> decide

theorem operandBytesB_le (u : OperandUse) : operandBytesB u ≤ 8 := by cases u <;> decide

theorem resultBytes_le (i : Instr) : resultBytes i ≤ 8 := by cases i <;> decide

/-- The accesses of `call m(a, b)` that load the operand bits R24 names. -/
def loadOperands (i : Instr) (a b : Word64) : List HostAction :=
  writeBytes 0x00 (operandBytesA (operandUse i)) (operandBitsA i a) ++
    writeBytes 0x08 (operandBytesB (operandUse i)) (operandBitsB i b)

theorem byteOf_zero_setWidth (n : Byte) : byteOf (n.setWidth 64) 0 = n := by
  apply BitVec.eq_of_getLsbD_eq
  intro j hj
  rw [getLsbD_byteOf, BitVec.getLsbD_setWidth, Nat.mul_zero, Nat.zero_add]
  simp [hj, show j < 64 by omega]

/-- The use sequence is one shape for the three operand uses: load, perform, read. -/
theorem call_eq (i : Instr) (a b : Word64) :
    call i a b = loadOperands i a b ++ (command i ++ readBytes 0x10 (resultBytes i)) := by
  unfold call loadOperands operandBitsA operandBitsB resultBytes
  cases operandUse i with
  | shift =>
    simp [operandBytesA, operandBytesB, lda64, ldcnt, rdr64, writeBytes, byteOf_zero_setWidth]
  | narrow => simp [operandBytesA, operandBytesB, lda32, ldb32, rdr32]
  | wide => simp [operandBytesA, operandBytesB, lda64, ldb64, rdr64]

theorem length_loadOperands (i : Instr) (a b : Word64) :
    (loadOperands i a b).length = operandBytesA (operandUse i) + operandBytesB (operandUse i) := by
  simp [loadOperands, writeBytes]

theorem length_call (i : Instr) (a b : Word64) :
    (call i a b).length = (loadOperands i a b).length + (resultBytes i + 1) := by
  simp [call_eq, command, readBytes]

theorem operandBitsA_loadBytes (i : Instr) (a r : Word64) :
    operandBitsA i (loadBytes (operandBitsA i a) r (operandBytesA (operandUse i))) = operandBitsA i a := by
  unfold operandBitsA
  cases operandUse i with
  | shift | wide => exact loadBytes_eight a r
  | narrow => simp [operandBytesA, lowHalf_loadBytes_four]

theorem operandBitsB_loadBytes (i : Instr) (b r : Word64) :
    operandBitsB i (loadBytes (operandBitsB i b) r (operandBytesB (operandUse i))) = operandBitsB i b := by
  unfold operandBitsB
  cases operandUse i with
  | shift => simp [operandBytesB, shiftCount_loadBytes_one]
  | narrow => simp [operandBytesB, lowHalf_loadBytes_four]
  | wide => exact loadBytes_eight b r

/-- The state after the loads: OPA and OPB with the operand bytes replaced and marked. -/
def operandsLoaded (i : Instr) (a b : Word64) (s : State) : State :=
  (s.putOpa (loadBytes (operandBitsA i a) s.opa (operandBytesA (operandUse i)))
      (markBytes s.opaHeld (operandBytesA (operandUse i)))).putOpb
    (loadBytes (operandBitsB i b) s.opb (operandBytesB (operandUse i)))
    (markBytes s.opbHeld (operandBytesB (operandUse i)))

theorem runSteps_loadOperands (i : Instr) (a b : Word64) (s : State) (rest : List HostAction) :
    runSteps (loadOperands i a b).length (s.withPending (loadOperands i a b ++ rest)) =
      .next ((operandsLoaded i a b s).withPending rest) := by
  have hA := operandBytesA_le (operandUse i)
  have hB := operandBytesB_le (operandUse i)
  rw [length_loadOperands, loadOperands, List.append_assoc, runSteps_add (runSteps_writeBytes (by omega) _ _ _),
    runSteps_writeBytes (by omega), writeWindow_opa _ _ hA, writeWindow_opb _ _ hB]
  rfl

/-- After the loads the command computes `Exec(m, a, b)`, whatever the upper bytes of OPA and OPB hold. -/
theorem execValue_operandsLoaded (i : Instr) (a b : Word64) (s : State) :
    execValue i (operandsLoaded i a b s).opa (operandsLoaded i a b s).opb = execValue i a b :=
  execValue_congr (operandBitsA_loadBytes i a s.opa) (operandBitsB_loadBytes i b s.opb)

/-- After the loads every operand byte the command reads holds a value (R181). -/
theorem operandsHeld_operandsLoaded (i : Instr) (a b : Word64) (s : State) :
    operandsHeld (operandUse i) (operandsLoaded i a b s) = true := by
  simp [operandsHeld, operandsLoaded, bytesReadA_eq_markBytes, bytesReadB_eq_markBytes,
    markBytes_and_markBytes_zero]

/-- The command of the use sequence, on written operands: RES holds the result in all its bytes. -/
theorem step_command_of_execValue {i : Instr} {s : State} {v : Word64} (h : execValue i s.opa s.opb = some v)
    (hheld : operandsHeld (operandUse i) s = true) (rest : List HostAction) :
    step (s.withPending (command i ++ rest)) = .next ((s.putRes v 0xFF).withPending rest) := by
  have hheld' : operandsHeld (operandUse i) (s.withPending rest) = true := hheld
  rw [step_command, exec_of_execValue i (s.withPending rest) h, if_pos hheld']
  rfl

/-- The state after `call m(a, b)`: operands loaded, the result `v` in RES, its bytes read. -/
def called (i : Instr) (a b v : Word64) (s : State) : State :=
  readWindow 0x10 ((operandsLoaded i a b s).putRes v 0xFF) (resultBytes i)

theorem runSteps_call {i : Instr} {a b v : Word64} (hv : execValue i a b = some v) (s : State)
    (rest : List HostAction) :
    runSteps (call i a b).length (s.withPending (call i a b ++ rest)) =
      .next ((called i a b v s).withPending rest) := by
  have hloaded := (execValue_operandsLoaded i a b s).trans hv
  rw [length_call, call_eq, List.append_assoc, List.append_assoc, runSteps_add (runSteps_loadOperands i a b s _),
    runSteps_succ (step_command_of_execValue hloaded (operandsHeld_operandsLoaded i a b s) _),
    runSteps_readBytes, called]

/-- Settles O30: the loads put the operand bits in place and mark them, the command puts `v` in RES, and the reads
deliver its bytes. -/
theorem callDeliversExec : Obligations.CallDeliversExec := by
  intro i a b v s rest hv
  refine ⟨_, runSteps_call hv s rest, ?_, ?_, rfl, ?_⟩
  · simp [called]
  · simp [called]
  · exact readWindow_res_received ((operandsLoaded i a b s).putRes v 0xFF) (resultBytes_le i)

end Sys2Proof.Proofs

/-! # Proofs about the state (10_state.md): what a step changes, when it ends, and what it does not depend on -/

namespace Sys2Proof.Proofs

open Sys2Proof.Machine Sys2Proof.Safety

/-! ## Bytes of the registers and of the window -/

/-- A byte of a register as a number: the register's digit in base 256 (R42). -/
theorem toNat_byteOf (v : Word64) (i : Nat) : (byteOf v i).toNat = v.toNat / 256 ^ i % 256 := by
  rw [byteOf, BitVec.extractLsb'_toNat, Nat.shiftRight_eq_div_pow, Nat.pow_mul]

/-- Offsets 0x00 to 0x07 are the bytes of OPA (R41). -/
theorem memRead8_opa {i : Nat} (hi : i < 8) (s : State) : memRead8 (BitVec.ofNat 5 i) s = byteOf s.opa i := by
  rw [memRead8, toNat_offset (by omega), if_pos (by omega)]

/-- Offsets 0x08 to 0x0F are the bytes of OPB (R41). -/
theorem memRead8_opb {i : Nat} (hi : i < 8) (s : State) :
    memRead8 (BitVec.ofNat 5 (0x08 + i)) s = byteOf s.opb i := by
  rw [memRead8, toNat_offset (by omega), if_neg (by omega), if_pos (by omega), Nat.add_sub_cancel_left]

theorem byteHeld_opa {i : Nat} (hi : i < 8) (s : State) :
    byteHeld (BitVec.ofNat 5 i) s = s.opaHeld.getLsbD i := by
  rw [byteHeld, toNat_offset (by omega), if_pos (by omega)]

theorem byteHeld_opb {i : Nat} (hi : i < 8) (s : State) :
    byteHeld (BitVec.ofNat 5 (0x08 + i)) s = s.opbHeld.getLsbD i := by
  rw [byteHeld, toNat_offset (by omega), if_neg (by omega), if_pos (by omega), Nat.add_sub_cancel_left]

/-- CMD and the reserved offsets store nothing (R27, R45). -/
theorem memWrite8_above {off : Offset} (h : ¬ off.toNat < 0x18) (v : Byte) (s : State) : memWrite8 off v s = s := by
  rw [memWrite8, if_neg (by omega), if_neg (by omega), if_neg (by omega)]

/-- A host write changes RES only at RES's own offsets (R43). -/
theorem memWrite8_res {off : Offset} (h : ¬ (0x10 ≤ off.toNat ∧ off.toNat ≤ 0x17)) (v : Byte) (s : State) :
    (memWrite8 off v s).res = s.res := by
  unfold memWrite8
  split_ifs with h1 h2 h3
  · rfl
  · rfl
  · exact absurd ⟨by omega, h3⟩ h
  · rfl

/-- The marks outside RES do not depend on RES (R33, R41). -/
theorem byteHeld_putRes {off : Offset} (h : off.toNat < 0x10 ∨ 0x17 < off.toNat) (v : Word64) (m : BitVec 8)
    (s : State) : byteHeld off (s.putRes v m) = byteHeld off s := by
  unfold byteHeld
  split_ifs with h1 h2 h3
  · rfl
  · rfl
  · omega
  · rfl

/-- The window outside RES does not depend on RES (R41). -/
theorem memRead8_putRes {off : Offset} (h : off.toNat < 0x10 ∨ 0x17 < off.toNat) (v : Word64) (m : BitVec 8)
    (s : State) : memRead8 off (s.putRes v m) = memRead8 off s := by
  unfold memRead8
  split_ifs with h1 h2 h3
  · rfl
  · rfl
  · omega
  · rfl

/-- Offsets 0x10 to 0x17 read what RES has received (R41). -/
theorem memRead8_putRes_res {off : Offset} (h : ¬ (off.toNat < 0x10 ∨ 0x17 < off.toNat)) (v : Word64)
    (m : BitVec 8) (s : State) : memRead8 off (s.putRes v m) = byteOf v (off.toNat - 16) := by
  rw [memRead8, if_neg (by omega), if_neg (by omega), if_pos (by omega), State.putRes_res]

/-- The end of a command leaves the window outside RES. -/
theorem memRead8_complete {off : Offset} (h : off.toNat < 0x10 ∨ 0x17 < off.toNat) (u : OperandUse)
    (r : Option Word64) (s : State) : memRead8 off (s.complete u r) = memRead8 off s := by
  cases r with
  | some v => exact memRead8_putRes h v _ s
  | none => exact memRead8_putRes h (Config.freeValue s.draws) 0x00 s

theorem byteHeld_complete {off : Offset} (h : off.toNat < 0x10 ∨ 0x17 < off.toNat) (u : OperandUse)
    (r : Option Word64) (s : State) : byteHeld off (s.complete u r) = byteHeld off s := by
  cases r with
  | some v => exact byteHeld_putRes h v _ s
  | none => exact byteHeld_putRes h (Config.freeValue s.draws) 0x00 s

/-- After the platform's reset no register byte holds a value (R32, R180). -/
theorem byteHeld_resetCore {off : Offset} (h : off.toNat < 0x18) (s : State) : byteHeld off s.resetCore = false := by
  unfold byteHeld
  split_ifs with h1 h2 h3
  · exact BitVec.getLsbD_zero
  · exact BitVec.getLsbD_zero
  · exact BitVec.getLsbD_zero
  · omega

/-- After the platform's reset the window reads as right after reset (R180). -/
theorem memRead8_resetCore (off : Offset) (s : State) : memRead8 off s.resetCore = memRead8 off State.reset := rfl

/-- Settles O15: the byte delivered is `memRead8`, region by region. -/
theorem hostReadAnswersByte : Obligations.HostReadAnswersByte := by
  intro s off rest
  refine ⟨memRead8 off s, step_rd8 off s rest, fun h => ?_, fun h => ?_, fun h => ?_, fun h => ?_⟩
  · rw [memRead8, if_pos h, toNat_byteOf]
  · rw [memRead8, if_neg (by omega), if_pos h.2, toNat_byteOf]
  · rw [memRead8, if_neg (by omega), if_neg (by omega), if_pos h.2, toNat_byteOf]
  · rw [memRead8, if_neg (by omega), if_neg (by omega), if_neg (by omega)]

/-! ## Commands -/

/-- The frame of the shared end of a command (R21, R22, R61). -/
theorem onlyResChanged_complete (u : OperandUse) (r : Option Word64) (s : State) :
    OnlyResChanged s (s.complete u r) :=
  ⟨by simp, by simp, by simp, by simp, by simp, by simp, fun _ h => memRead8_complete h u r s⟩

/-- Settles O23: every command ends in `State.complete`, whose frame is that of the statement. -/
theorem commandsChangeOnlyRes : Obligations.CommandsChangeOnlyRes := by
  intro i s t h
  rw [exec_eq_complete] at h
  injection h with h
  exact h ▸ onlyResChanged_complete _ _ s

/-- A 32-bit operation's result is a zero-extended 32-bit value (R23). -/
theorem execValue_narrow {i : Instr} (h : operandUse i = .narrow) (a b : Word64) :
    ∃ r, execValue i a b = zext64 r := by
  cases i with
  | mulTrunc32 | divU32 | divS32 | modU32 | modS32 | fdiv32 => exact ⟨_, rfl⟩
  | shl64 | shrLogical64 | shrArith64 | mulTrunc64 | divU64 | divS64 | modU64 | modS64 => cases h

theorem toNat_lt_of_zext64 {r : Option Word32} {v : Word64} (h : zext64 r = some v) : v.toNat < 2 ^ 32 := by
  obtain ⟨x, -, rfl⟩ := Option.map_eq_some_iff.mp h
  rw [BitVec.toNat_setWidth_of_le (by decide)]
  exact x.isLt

/-- Settles O24: the command puts its result in RES, and the result is a zero-extended 32-bit value. -/
theorem narrowResultsZeroExtended : Obligations.NarrowResultsZeroExtended := by
  intro i s hnarrow hdef
  obtain ⟨v, hv⟩ := Option.isSome_iff_exists.mp hdef
  obtain ⟨r, hr⟩ := execValue_narrow hnarrow s.opa s.opb
  exact ⟨_, exec_of_execValue i s hv, toNat_lt_of_zext64 (hr.symm.trans hv)⟩

/-- Settles O59: the write runs the command, whose end puts `v` in RES and marks all its bytes. -/
theorem definedCommandsTerminate : Obligations.DefinedCommandsTerminate := by
  intro i v s rest hheld hv
  have hstep := step_command_of_execValue hv hheld rest
  exact ⟨_, hstep, rfl, rfl, commandsChangeOnlyRes i _ _ ((step_command i s rest).symm.trans hstep)⟩

theorem performCommand_of_decode {c : Byte} {i : Instr} (h : decodeByte c = .ok i) (s : State) :
    performCommand c s = exec i s := by
  rw [performCommand, h]

/-- The write of a byte that decodes to `i` is the command `i` (R27, R61). -/
theorem step_write_cmd {c : Byte} {i : Instr} (h : decodeByte c = .ok i) (s : State) (rest : List HostAction) :
    step (s.withPending (.wr8 cmdOffset c :: rest)) = exec i (s.withPending rest) := by
  rw [step_withPending, perform, performWrite8, if_pos rfl, performCommand_of_decode h]

/-- An 8-bit instruction word is one byte (R60). -/
theorem commandBytes_eight (w : Nat) : ∃ c, commandBytes 8 w = [c] := ⟨_, rfl⟩

theorem decodeByte_of_decode_singleton {c : Byte} {i : Instr} {rest : List Byte} (h : decode [c] = .ok (i, rest)) :
    decodeByte c = .ok i := by
  rw [decode] at h
  cases hd : decodeByte c with
  | ok j => rw [hd] at h; cases h; rfl
  | rejected e => rw [hd] at h; cases h

theorem decode_of_decodeTableWord {n w : Nat} {i : Instr} (h : decodeTableWord n w = some i) :
    decode (commandBytes n w) = .ok (i, []) := by
  unfold decodeTableWord at h
  split at h
  · next j hd => cases h; exact hd
  · cases h

/-- Settles O5: the write to CMD dispatches on the decoded byte, and `withFetchWord` puts that write first. -/
theorem stepRunsDecodedCommand : Obligations.StepRunsDecodedCommand := by
  refine ⟨fun s rest c i h => step_write_cmd h s rest, fun s w i h => ?_⟩
  have hdec := decode_of_decodeTableWord h
  obtain ⟨c, hc⟩ := commandBytes_eight w
  rw [hc] at hdec
  rw [State.withFetchWord, hc]
  exact step_write_cmd (decodeByte_of_decode_singleton hdec) s s.pending

/-! ## What a step can do to the registers -/

/-- `t` has the registers and marks of `s`. -/
structure SameRegisters (s t : State) : Prop where
  opa : t.opa = s.opa
  opb : t.opb = s.opb
  res : t.res = s.res
  opaHeld : t.opaHeld = s.opaHeld
  opbHeld : t.opbHeld = s.opbHeld
  resHeld : t.resHeld = s.resHeld

theorem SameRegisters.refl (s : State) : SameRegisters s s := ⟨rfl, rfl, rfl, rfl, rfl, rfl⟩

theorem sameRegisters_withPending (p : List HostAction) (s : State) : SameRegisters s (s.withPending p) :=
  ⟨rfl, rfl, rfl, rfl, rfl, rfl⟩

theorem SameRegisters.memRead8_eq {s t : State} (h : SameRegisters s t) (off : Offset) :
    memRead8 off t = memRead8 off s := by
  rw [memRead8, memRead8, h.opa, h.opb, h.res]

theorem SameRegisters.byteHeld_eq {s t : State} (h : SameRegisters s t) (off : Offset) :
    byteHeld off t = byteHeld off s := by
  rw [byteHeld, byteHeld, h.opaHeld, h.opbHeld, h.resHeld]

/-- The host's next access writes the byte `v` at `off`: a byte write, or the first half of a 16-bit write (R46). -/
def NextWrites (s : State) (off : Offset) (v : Byte) : Prop :=
  ∃ rest, s.pending = .wr8 off v :: rest ∨ ∃ w, s.pending = .wr16 off w :: rest ∧ w.extractLsb' 0 8 = v

/-- What a step can have done to the registers: nothing, a command, a byte write, or the platform's reset. -/
inductive RegisterEffect (s t : State) : Prop
  | kept (h : SameRegisters s t)
  | command (c : Byte) (i : Instr) (p : List HostAction) (hw : NextWrites s cmdOffset c) (hi : decodeByte c = .ok i)
      (ht : t = (s.withPending p).complete (operandUse i) (execValue i s.opa s.opb))
  | write (off : Offset) (v : Byte) (p : List HostAction) (hw : NextWrites s off v)
      (ht : t = memWrite8 off v (s.withPending p))
  | reset (rest : List HostAction) (hp : s.pending = .reset :: rest) (ht : t = (s.withPending rest).resetCore)

theorem performWrite8_effect {s t : State} {off : Offset} {v : Byte} {p : List HostAction} (hw : NextWrites s off v)
    (h : performWrite8 off v (s.withPending p) = .next t) : RegisterEffect s t := by
  obtain ⟨-, -, ⟨rfl, i, hi, ht⟩ | ⟨-, rfl⟩ | ⟨-, ht⟩⟩ := performWrite8_spec off v _ t h
  · exact .command v i p hw hi ht
  · exact .kept (sameRegisters_withPending p s)
  · exact .write off v p hw ht

/-- The inversion of a step, for everything that is said about the registers. -/
theorem step_effect {s t : State} (h : step s = .next t) : RegisterEffect s t := by
  cases hp : s.pending with
  | nil =>
    rw [step_idle s hp] at h
    cases h
    exact .kept (.refl s)
  | cons act rest =>
    rw [step_cons s act rest hp] at h
    cases act with
    | rd8 off => cases h; exact .kept ⟨rfl, rfl, rfl, rfl, rfl, rfl⟩
    | rd16 off =>
      rw [perform] at h
      split at h
      · cases h; exact .kept ⟨rfl, rfl, rfl, rfl, rfl, rfl⟩
      · cases h; exact .kept ⟨rfl, rfl, rfl, rfl, rfl, rfl⟩
    | wr8 off v => exact performWrite8_effect ⟨rest, .inl hp⟩ h
    | wr16 off w =>
      have hw : NextWrites s off (w.extractLsb' 0 8) := ⟨rest, .inr ⟨w, hp, rfl⟩⟩
      rw [perform] at h
      split at h
      · exact performWrite8_effect hw h
      · exact performWrite8_effect hw h
    | copy src dst => cases h; exact .kept ⟨rfl, rfl, rfl, rfl, rfl, rfl⟩
    | reset => cases h; exact .reset rest hp rfl

/-- Settles O11: of the effects a step can have, only a byte write at an operand's offset and the reset touch an
operand byte; the first gives the byte a value, the second puts the reset contents back. -/
theorem unwrittenOperandsKept : Obligations.UnwrittenOperandsKept := by
  intro s t hinv hstep off hoff hheld
  cases step_effect hstep with
  | kept h =>
    rw [h.byteHeld_eq] at hheld
    rw [h.memRead8_eq]
    exact hinv off hoff hheld
  | command c i p hw hi ht =>
    rw [ht, byteHeld_complete (.inl hoff)] at hheld
    rw [ht, memRead8_complete (.inl hoff)]
    exact hinv off hoff hheld
  | write o v p hw ht =>
    subst ht
    by_cases ho : off = o
    · subst ho
      rw [(memWrite8_same off v _ (by omega)).2] at hheld
      cases hheld
    · obtain ⟨hread, hmark⟩ := memWrite8_other o off v (s.withPending p) ho
      rw [hmark] at hheld
      rw [hread]
      exact hinv off hoff hheld
  | reset rest hp ht => rw [ht, memRead8_resetCore]

/-- The host's next access is a write for which `P` holds of offset and byte, or the platform's reset. -/
def HostWritesOrResets (P : Offset → Byte → Prop) (s : State) : Prop :=
  ∃ rest, (∃ off v, s.pending = .wr8 off v :: rest ∧ P off v) ∨
    (∃ off v, s.pending = .wr16 off v :: rest ∧ P off (v.extractLsb' 0 8)) ∨ s.pending = .reset :: rest

theorem hostWritesOrResets_of_nextWrites {P : Offset → Byte → Prop} {s : State} {off : Offset} {v : Byte}
    (hw : NextWrites s off v) (hP : P off v) : HostWritesOrResets P s := by
  obtain ⟨rest, hp | ⟨w, hp, rfl⟩⟩ := hw
  · exact ⟨rest, .inl ⟨off, v, hp, hP⟩⟩
  · exact ⟨rest, .inr (.inl ⟨off, w, hp, hP⟩)⟩

/-- A register `f` that commands and byte writes leave unless `P` holds of the write changes only in a step that is
such a write or the platform's reset. -/
theorem hostWritesOrResets_of_changed {f : State → Word64} {P : Offset → Byte → Prop} {s t : State}
    (hkept : ∀ t, SameRegisters s t → f t = f s)
    (hcommand : ∀ c i p, decodeByte c = .ok i → ¬ P cmdOffset c →
      f ((s.withPending p).complete (operandUse i) (execValue i s.opa s.opb)) = f s)
    (hwrite : ∀ off v p, ¬ P off v → f (memWrite8 off v (s.withPending p)) = f s)
    (hstep : step s = .next t) (hchanged : f t ≠ f s) : HostWritesOrResets P s := by
  cases step_effect hstep with
  | kept h => exact absurd (hkept t h) hchanged
  | command c i p hw hi ht =>
    exact hostWritesOrResets_of_nextWrites hw
      (Classical.byContradiction fun hP => hchanged (ht ▸ hcommand c i p hi hP))
  | write off v p hw ht =>
    exact hostWritesOrResets_of_nextWrites hw
      (Classical.byContradiction fun hP => hchanged (ht ▸ hwrite off v p hP))
  | reset rest hp _ => exact ⟨rest, .inr (.inr hp)⟩

/-- Settles O12: a command leaves OPA and OPB, and a byte write changes one only at that register's offsets. -/
theorem operandsChangedOnlyByHost : Obligations.OperandsChangedOnlyByHost := by
  intro s t hstep
  constructor
  · exact hostWritesOrResets_of_changed (f := State.opa) (P := fun off _ => off.toNat ≤ 0x07)
      (fun _ h => h.opa) (fun _ _ _ _ _ => State.complete_opa _ _ _)
      (fun off v p hP => ((memWrite8_operands off v (s.withPending p)).1 hP).1) hstep
  · exact hostWritesOrResets_of_changed (f := State.opb) (P := fun off _ => 0x08 ≤ off.toNat ∧ off.toNat ≤ 0x0F)
      (fun _ h => h.opb) (fun _ _ _ _ _ => State.complete_opb _ _ _)
      (fun off v p hP => ((memWrite8_operands off v (s.withPending p)).2 hP).1) hstep

/-- The host's writes that may change RES: at its own offsets, or a defined command's byte at CMD (R23, R43). -/
def MayChangeRes (off : Offset) (v : Byte) : Prop :=
  (0x10 ≤ off.toNat ∧ off.toNat ≤ 0x17) ∨ (off = cmdOffset ∧ ∃ i, decodeByte v = .ok i)

/-- Settles O13: a command is the write of a byte that decodes, and a byte write changes RES only at its offsets. -/
theorem resChangedOnlyByCommandOrHost : Obligations.ResChangedOnlyByCommandOrHost := by
  intro s t hstep
  exact hostWritesOrResets_of_changed (f := State.res) (P := MayChangeRes)
    (fun _ h => h.res) (fun _ i _ hi hP => absurd (.inr ⟨rfl, i, hi⟩) hP)
    (fun off v p hP => memWrite8_res (fun h => hP (.inl h)) v (s.withPending p)) hstep

/-! ## Steps answer a next state and take one access -/

/-- A byte write answers a next state and leaves the host's later actions. -/
theorem performWrite8_next (off : Offset) (v : Byte) (s : State) :
    ∃ t, performWrite8 off v s = .next t ∧ t.pending = s.pending := by
  have hnext : ∃ t, performWrite8 off v s = .next t := by
    obtain ⟨-, h⟩ | ⟨-, h⟩ := performWrite8_cases off v s
    · obtain ⟨i, -, hc⟩ | ⟨e, -, hc⟩ := performCommand_cases v s
      · exact ⟨_, h.trans hc⟩
      · exact ⟨_, h.trans hc⟩
    · exact ⟨_, h⟩
  obtain ⟨t, ht⟩ := hnext
  exact ⟨t, ht, (performWrite8_spec off v s t ht).1⟩

theorem stepsLeft_eq_of_pending {s : State} {act : HostAction} {rest : List HostAction} (h : s.pending = act :: rest) :
    stepsLeft s = actionSteps act + (rest.map actionSteps).sum := by
  rw [stepsLeft, h, List.map_cons, List.sum_cons]

theorem actionSteps_pos (act : HostAction) : 0 < actionSteps act := by
  cases act with
  | rd16 off | wr16 off _ => rw [actionSteps]; split <;> decide
  | rd8 | wr8 | reset => exact Nat.one_pos
  | copy => exact Nat.two_pos

/-- There is work left exactly when an action is pending. -/
theorem stepsLeft_eq_zero_iff (s : State) : stepsLeft s = 0 ↔ s.pending = [] := by
  cases hp : s.pending with
  | nil => simp [stepsLeft, hp]
  | cons act rest =>
    have hpos := actionSteps_pos act
    rw [stepsLeft_eq_of_pending hp]
    simp
    omega

/-- An action answers a next state and takes one access off the work it and the later actions are (R46, R49). -/
theorem perform_next (act : HostAction) (s : State) :
    ∃ t, perform act s = .next t ∧ stepsLeft t + 1 = actionSteps act + stepsLeft s := by
  cases act with
  | rd8 off => exact ⟨_, rfl, Nat.add_comm _ _⟩
  | rd16 off =>
    rw [perform, actionSteps]
    split
    · exact ⟨_, rfl, Nat.add_comm _ _⟩
    · exact ⟨_, rfl, by rw [stepsLeft_eq_of_pending rfl, stepsLeft, actionSteps]; omega⟩
  | wr8 off v =>
    obtain ⟨t, ht, hp⟩ := performWrite8_next off v s
    exact ⟨t, ht, by rw [stepsLeft, hp, stepsLeft, actionSteps, Nat.add_comm]⟩
  | wr16 off w =>
    rw [perform, actionSteps]
    split
    · obtain ⟨t, ht, hp⟩ := performWrite8_next off (w.extractLsb' 0 8) s
      exact ⟨t, ht, by rw [stepsLeft, hp, stepsLeft, Nat.add_comm]⟩
    · obtain ⟨t, ht, hp⟩ := performWrite8_next off (w.extractLsb' 0 8)
        (s.withPending (.wr8 (off + 1) (w.extractLsb' 8 8) :: s.pending))
      exact ⟨t, ht, by rw [stepsLeft_eq_of_pending hp, stepsLeft, actionSteps]; omega⟩
  | copy src dst => exact ⟨_, rfl, by rw [stepsLeft_eq_of_pending rfl, stepsLeft, actionSteps, actionSteps]; omega⟩
  | reset => exact ⟨_, rfl, Nat.add_comm _ _⟩

/-- The model's step answers a next state from every state, and takes one access off the work left (R46, R48, R51). -/
theorem step_next (s : State) : ∃ t, step s = .next t ∧ (s.pending ≠ [] → stepsLeft t + 1 = stepsLeft s) := by
  cases hp : s.pending with
  | nil => exact ⟨s, step_idle s hp, fun h => absurd rfl h⟩
  | cons act rest =>
    obtain ⟨t, ht, hleft⟩ := perform_next act (s.withPending rest)
    exact ⟨t, (step_cons s act rest hp).trans ht, fun _ => hleft.trans (stepsLeft_eq_of_pending hp).symm⟩

/-- Each step of a run takes one access while any is left. -/
theorem runSteps_next {k : Nat} {s : State} (hk : k ≤ stepsLeft s) :
    ∃ t, runSteps k s = .next t ∧ stepsLeft t + k = stepsLeft s := by
  induction k generalizing s with
  | zero => exact ⟨s, rfl, rfl⟩
  | succ k ih =>
    have hpending : s.pending ≠ [] := fun h => by
      rw [(stepsLeft_eq_zero_iff s).mpr h] at hk
      exact absurd hk (Nat.not_succ_le_zero k)
    obtain ⟨u, hu, hone⟩ := step_next s
    have huleft := hone hpending
    obtain ⟨t, ht, hleft⟩ := ih (s := u) (by omega)
    exact ⟨t, (runSteps_succ hu k).trans ht, by omega⟩

/-- The pending actions complete after exactly `stepsLeft` steps (R31, R51). -/
theorem pending_completes (s : State) :
    (∃ t, runSteps (stepsLeft s) s = .next t ∧ t.pending = []) ∧
    ∀ k < stepsLeft s, ∃ t, runSteps k s = .next t ∧ t.pending ≠ [] := by
  constructor
  · obtain ⟨t, ht, hleft⟩ := runSteps_next (Nat.le_refl (stepsLeft s))
    exact ⟨t, ht, (stepsLeft_eq_zero_iff t).mp (by omega)⟩
  · intro k hk
    obtain ⟨t, ht, hleft⟩ := runSteps_next (Nat.le_of_lt hk)
    refine ⟨t, ht, fun hnil => ?_⟩
    have hzero := (stepsLeft_eq_zero_iff t).mpr hnil
    omega

/-- Settles O8: the model steps on from every state, so the count holds of more runs than those R190 supports. -/
theorem pendingActionsComplete : Obligations.PendingActionsComplete := fun s _ => pending_completes s

/-- Settles O60: the model steps on from every state, safe ones among them. -/
theorem safeStepsTerminate : Obligations.SafeStepsTerminate :=
  ⟨fun s _ => step_next s, fun s _ => pending_completes s⟩

/-! ## The platform's reset -/

/-- The platform's reset takes itself off the pending actions (R180). -/
theorem step_reset (s : State) (rest : List HostAction) :
    step (s.withPending (.reset :: rest)) = .next (s.resetCore.withPending rest) := rfl

/-- Settles O9: the reset clears every mark, whatever the state, and the write to CMD before it leaves it pending. -/
theorem resetLeavesNoByteHeld : Obligations.ResetLeavesNoByteHeld := by
  refine ⟨fun off h => byteHeld_resetCore h State.reset, fun s rest => ?_, fun s c rest _ => ?_⟩
  · exact ⟨_, step_reset s rest, fun off h => byteHeld_resetCore h s, rfl, rfl⟩
  · obtain ⟨u, hu, hpending⟩ := performWrite8_next cmdOffset c (s.withPending (.reset :: rest))
    have hwrite : step (s.withPending (.wr8 cmdOffset c :: .reset :: rest)) = .next u := hu
    have hreset : step u = .next (u.resetCore.withPending rest) := step_cons u .reset rest hpending
    exact ⟨_, (runSteps_succ hwrite 1).trans (runSteps_succ hreset 0), fun off h => byteHeld_resetCore h u, rfl⟩

/-! ## Operand bits come from the operand bytes -/

/-- Loading bytes depends on the bytes loaded only. -/
theorem loadBytes_congr {v w : Word64} (r : Word64) {n : Nat} (h : ∀ i < n, byteOf v i = byteOf w i) :
    loadBytes v r n = loadBytes w r n := by
  induction n with
  | zero => rfl
  | succ n ih => rw [loadBytes, loadBytes, ih (fun i hi => h i (by omega)), h n (by omega)]

theorem setWidth_lowHalf_eq_loadBytes (v : Word64) : (lowHalf v).setWidth 64 = loadBytes v 0 4 := by
  apply BitVec.eq_of_getLsbD_eq
  intro k hk
  rw [getLsbD_loadBytes _ _ _ _ hk, lowHalf, BitVec.getLsbD_setWidth, BitVec.getLsbD_setWidth]
  by_cases h : k < 32
  · simp [h, hk]
  · simp [h]

theorem setWidth_shiftCount_eq_loadBytes (v : Word64) : (shiftCount v).setWidth 64 = loadBytes v 0 1 := by
  apply BitVec.eq_of_getLsbD_eq
  intro k hk
  rw [getLsbD_loadBytes _ _ _ _ hk, shiftCount, BitVec.getLsbD_setWidth, BitVec.getLsbD_setWidth]
  by_cases h : k < 8
  · simp [h, hk]
  · simp [h]

/-- The operand bits of OPA are the operand bytes, the others zero (R24). -/
theorem operandBitsA_eq_loadBytes (i : Instr) (a : Word64) :
    operandBitsA i a = loadBytes a 0 (operandBytesA (operandUse i)) := by
  unfold operandBitsA
  cases operandUse i with
  | shift | wide => exact (loadBytes_eight a 0).symm
  | narrow => exact setWidth_lowHalf_eq_loadBytes a

/-- The operand bits of OPB are the operand bytes, the others zero (R24). -/
theorem operandBitsB_eq_loadBytes (i : Instr) (b : Word64) :
    operandBitsB i b = loadBytes b 0 (operandBytesB (operandUse i)) := by
  unfold operandBitsB
  cases operandUse i with
  | shift => exact setWidth_shiftCount_eq_loadBytes b
  | narrow => exact setWidth_lowHalf_eq_loadBytes b
  | wide => exact (loadBytes_eight b 0).symm

theorem getLsbD_markBytes (m : BitVec 8) (n j : Nat) (hj : j < 8) :
    (markBytes m n).getLsbD j = (m.getLsbD j || decide (j < n)) := by
  induction n with
  | zero => simp [markBytes]
  | succ n ih =>
    rw [markBytes, getLsbD_heldMark _ _ _ hj, ih, Bool.or_assoc, ← Bool.decide_or]
    congr 2
    exact propext (by omega)

/-- Marks that cover the first `n` bytes cover each of them. -/
theorem getLsbD_of_and_markBytes {m : BitVec 8} {n i : Nat} (h : m &&& markBytes 0#8 n = markBytes 0#8 n)
    (hn : n ≤ 8) (hi : i < n) : m.getLsbD i = true := by
  have hbit := congrArg (fun x => x.getLsbD i) h
  simpa [getLsbD_markBytes _ _ _ (Nat.lt_of_lt_of_le hi hn), hi] using hbit

theorem opaHeld_of_operandsHeld {u : OperandUse} {s : State} (h : operandsHeld u s = true) {i : Nat}
    (hi : i < operandBytesA u) : s.opaHeld.getLsbD i = true := by
  have hmask := eq_of_beq (Bool.and_eq_true_iff.mp h).1
  rw [bytesReadA_eq_markBytes] at hmask
  exact getLsbD_of_and_markBytes hmask (operandBytesA_le u) hi

theorem opbHeld_of_operandsHeld {u : OperandUse} {s : State} (h : operandsHeld u s = true) {i : Nat}
    (hi : i < operandBytesB u) : s.opbHeld.getLsbD i = true := by
  have hmask := eq_of_beq (Bool.and_eq_true_iff.mp h).2
  rw [bytesReadB_eq_markBytes] at hmask
  exact getLsbD_of_and_markBytes hmask (operandBytesB_le u) hi

/-! ## States that agree on the bytes that hold a value: each operation keeps the agreement -/

section Agreement

variable {s t : State} (h : AgreeOnHeld s t)
include h

theorem pending_eq_of_agree : s.pending = t.pending := by
  obtain ⟨-, -, -, -, hpending, -⟩ := h
  exact hpending

theorem received_eq_of_agree : s.received = t.received := by
  obtain ⟨-, -, -, -, -, hreceived, -⟩ := h
  exact hreceived

theorem draws_eq_of_agree : s.draws = t.draws := by
  obtain ⟨-, -, -, hdraws, -⟩ := h
  exact hdraws

theorem memRead8_eq_of_agree {off : Offset} (hheld : byteHeld off s = true) : memRead8 off s = memRead8 off t := by
  obtain ⟨-, -, -, -, -, -, hbytes⟩ := h
  exact hbytes off hheld

theorem agreeOnHeld_withPending (p : List HostAction) : AgreeOnHeld (s.withPending p) (t.withPending p) := by
  obtain ⟨ha, hb, hr, hdraws, -, hreceived, hbytes⟩ := h
  exact ⟨ha, hb, hr, hdraws, rfl, hreceived, hbytes⟩

theorem agreeOnHeld_receive (b : Byte) : AgreeOnHeld (s.receive b) (t.receive b) := by
  obtain ⟨ha, hb, hr, hdraws, hpending, hreceived, hbytes⟩ := h
  exact ⟨ha, hb, hr, hdraws, hpending, congrArg (b :: ·) hreceived, hbytes⟩

theorem agreeOnHeld_drawn : AgreeOnHeld s.drawn t.drawn := by
  obtain ⟨ha, hb, hr, hdraws, hpending, hreceived, hbytes⟩ := h
  exact ⟨ha, hb, hr, congrArg (· + 1) hdraws, hpending, hreceived, hbytes⟩

theorem agreeOnHeld_resetCore : AgreeOnHeld s.resetCore t.resetCore := by
  obtain ⟨-, -, -, hdraws, hpending, hreceived, -⟩ := h
  exact ⟨rfl, rfl, rfl, hdraws, hpending, hreceived, fun _ _ => rfl⟩

theorem agreeOnHeld_putRes (v : Word64) (m : BitVec 8) : AgreeOnHeld (s.putRes v m) (t.putRes v m) := by
  obtain ⟨ha, hb, -, hdraws, hpending, hreceived, hbytes⟩ := h
  refine ⟨ha, hb, rfl, hdraws, hpending, hreceived, fun off hoff => ?_⟩
  by_cases hout : off.toNat < 0x10 ∨ 0x17 < off.toNat
  · rw [byteHeld_putRes hout] at hoff
    rw [memRead8_putRes hout, memRead8_putRes hout]
    exact hbytes off hoff
  · rw [memRead8_putRes_res hout, memRead8_putRes_res hout]

/-- A byte write marks and writes the same byte in both; the other bytes agree as before. -/
theorem agreeOnHeld_memWrite8 (off : Offset) (v : Byte) : AgreeOnHeld (memWrite8 off v s) (memWrite8 off v t) := by
  by_cases hoff : off.toNat < 0x18
  · obtain ⟨ha, hb, hr, hdraws, hpending, hreceived, hbytes⟩ := h
    have hmarks : (memWrite8 off v s).opaHeld = (memWrite8 off v t).opaHeld ∧
        (memWrite8 off v s).opbHeld = (memWrite8 off v t).opbHeld ∧
        (memWrite8 off v s).resHeld = (memWrite8 off v t).resHeld := by
      unfold memWrite8
      split_ifs <;> simp [ha, hb, hr]
    obtain ⟨ha', hb', hr'⟩ := hmarks
    refine ⟨ha', hb', hr', by simpa, by simpa, by simpa, fun o ho => ?_⟩
    by_cases hsame : o = off
    · subst hsame
      rw [(memWrite8_same o v s hoff).1, (memWrite8_same o v t hoff).1]
    · obtain ⟨hread, hmark⟩ := memWrite8_other off o v s hsame
      rw [hmark] at ho
      rw [hread, (memWrite8_other off o v t hsame).1]
      exact hbytes o ho
  · rwa [memWrite8_above hoff, memWrite8_above hoff]

/-- A read of a byte with a value delivers the same byte from both. -/
theorem agreeOnHeld_performRead8 {off : Offset} (hheld : byteHeld off s = true) :
    AgreeOnHeld (performRead8 off s) (performRead8 off t) := by
  rw [performRead8, performRead8, memRead8_eq_of_agree h hheld]
  exact agreeOnHeld_receive h _

theorem operandsHeld_eq_of_agree (u : OperandUse) : operandsHeld u t = operandsHeld u s := by
  obtain ⟨ha, hb, -⟩ := h
  rw [operandsHeld, operandsHeld, ha, hb]

/-- A command whose operand bytes hold a value has the same result on both (R33). -/
theorem execValue_eq_of_agree {i : Instr} (hheld : operandsHeld (operandUse i) s = true) :
    execValue i t.opa t.opb = execValue i s.opa s.opb := by
  have hA : ∀ j < operandBytesA (operandUse i), byteOf t.opa j = byteOf s.opa j := fun j hj => by
    have hj8 := Nat.lt_of_lt_of_le hj (operandBytesA_le _)
    rw [← memRead8_opa hj8, ← memRead8_opa hj8]
    exact (memRead8_eq_of_agree h ((byteHeld_opa hj8 s).trans (opaHeld_of_operandsHeld hheld hj))).symm
  have hB : ∀ j < operandBytesB (operandUse i), byteOf t.opb j = byteOf s.opb j := fun j hj => by
    have hj8 := Nat.lt_of_lt_of_le hj (operandBytesB_le _)
    rw [← memRead8_opb hj8, ← memRead8_opb hj8]
    exact (memRead8_eq_of_agree h ((byteHeld_opb hj8 s).trans (opbHeld_of_operandsHeld hheld hj))).symm
  refine execValue_congr ?_ ?_
  · rw [operandBitsA_eq_loadBytes, operandBitsA_eq_loadBytes, loadBytes_congr 0 hA]
  · rw [operandBitsB_eq_loadBytes, operandBitsB_eq_loadBytes, loadBytes_congr 0 hB]

end Agreement

/-! ## Safe accesses keep the agreement (R33, R181 to R184) -/

/-- A safe command is a defined command with held operand bytes and a defined result. -/
theorem exists_of_commandSafe {c : Byte} {s : State} (h : commandSafe c s = true) :
    ∃ i v, decodeByte c = .ok i ∧ operandsHeld (operandUse i) s = true ∧ execValue i s.opa s.opb = some v := by
  unfold commandSafe at h
  cases hd : decodeByte c with
  | ok i =>
    rw [hd] at h
    obtain ⟨hheld, hdef⟩ := Bool.and_eq_true_iff.mp h
    obtain ⟨v, hv⟩ := Option.isSome_iff_exists.mp hdef
    exact ⟨i, v, rfl, hheld, hv⟩
  | rejected e => rw [hd] at h; cases h

/-- Two outcomes are next states that agree on the bytes that hold a value. -/
def NextAgree (r r' : Result) : Prop := ∃ s' t', r = .next s' ∧ r' = .next t' ∧ AgreeOnHeld s' t'

theorem nextAgree_next {s t : State} (h : AgreeOnHeld s t) : NextAgree (.next s) (.next t) := ⟨s, t, rfl, rfl, h⟩

/-- A safe command puts the same result, all its bytes with a value, in both. -/
theorem nextAgree_performCommand {s t : State} (h : AgreeOnHeld s t) {c : Byte} (hsafe : commandSafe c s = true) :
    NextAgree (performCommand c s) (performCommand c t) := by
  obtain ⟨i, v, hi, hheld, hv⟩ := exists_of_commandSafe hsafe
  have hv' := (execValue_eq_of_agree h hheld).trans hv
  rw [performCommand_of_decode hi, performCommand_of_decode hi, exec_of_execValue i s hv,
    exec_of_execValue i t hv', operandsHeld_eq_of_agree h]
  exact nextAgree_next (agreeOnHeld_putRes h v _)

theorem nextAgree_performWrite8 {s t : State} (h : AgreeOnHeld s t) {off : Offset} {v : Byte}
    (hsafe : writeSafe off v s = true) : NextAgree (performWrite8 off v s) (performWrite8 off v t) := by
  unfold performWrite8
  split_ifs with hcmd
  · have hsafe' : commandSafe v s = true := by simpa [writeSafe, hcmd] using hsafe
    exact nextAgree_performCommand h hsafe'
  · exact nextAgree_next (agreeOnHeld_memWrite8 h off v)

/-- A safe action keeps the agreement, whatever actions `p` come after it. -/
theorem nextAgree_perform {s t : State} (h : AgreeOnHeld s t) {act : HostAction} {p : List HostAction}
    (hsafe : stepSafe (s.withPending (act :: p)) = true) :
    NextAgree (perform act (s.withPending p)) (perform act (t.withPending p)) := by
  have hp := agreeOnHeld_withPending h p
  cases act with
  | rd8 off => exact nextAgree_next (agreeOnHeld_performRead8 hp hsafe)
  | rd16 off =>
    have hread := agreeOnHeld_performRead8 hp (off := off) hsafe
    rw [perform, perform]
    split_ifs
    · rw [draws_eq_of_agree hp]
      exact nextAgree_next (agreeOnHeld_drawn (agreeOnHeld_receive hread _))
    · exact nextAgree_next (agreeOnHeld_withPending hread _)
  | wr8 off v => exact nextAgree_performWrite8 hp hsafe
  | wr16 off w =>
    rw [perform, perform]
    split_ifs
    · exact nextAgree_performWrite8 hp hsafe
    · exact nextAgree_performWrite8 (agreeOnHeld_withPending hp _) hsafe
  | copy src dst =>
    rw [perform, perform, memRead8_eq_of_agree hp hsafe]
    exact nextAgree_next (agreeOnHeld_withPending (agreeOnHeld_performRead8 hp hsafe) _)
  | reset => exact nextAgree_next (agreeOnHeld_resetCore hp)

theorem nextAgree_step {s t : State} (h : AgreeOnHeld s t) (hsafe : stepSafe s = true) :
    NextAgree (step s) (step t) := by
  have hpending := pending_eq_of_agree h
  cases hs : s.pending with
  | nil =>
    rw [step_idle s hs, step_idle t (hpending.symm.trans hs)]
    exact nextAgree_next h
  | cons act rest =>
    rw [step_cons s act rest hs, step_cons t act rest (hpending.symm.trans hs)]
    rw [← s.withPending_self, hs] at hsafe
    exact nextAgree_perform h hsafe

/-- Settles O28: a safe action reads only bytes with a value, on which the two states agree. -/
theorem safeStepIgnoresUnheldBytes : Obligations.SafeStepIgnoresUnheldBytes :=
  fun _ _ h hsafe => nextAgree_step h hsafe

/-- The agreement holds along safe runs, by induction on the number of steps. -/
theorem nextAgree_runSteps {n : Nat} {s t : State} (h : AgreeOnHeld s t) (hsafe : runSafe n s) :
    NextAgree (runSteps n s) (runSteps n t) := by
  induction n generalizing s t with
  | zero => exact nextAgree_next h
  | succ n ih =>
    obtain ⟨hstep, hrest⟩ := hsafe
    obtain ⟨s', t', hs, ht, h'⟩ := nextAgree_step h hstep
    rw [runSteps_succ hs, runSteps_succ ht]
    exact ih h' (hrest s' hs)

/-- Settles O29: agreeing states have received the same bytes, and safe runs keep the agreement. -/
theorem safeRunsIgnoreResetContents : Obligations.SafeRunsIgnoreResetContents := by
  intro n s t h hsafe
  obtain ⟨s', t', hs, ht, h'⟩ := nextAgree_runSteps h hsafe
  exact ⟨s', t', hs, ht, h', received_eq_of_agree h'⟩

end Sys2Proof.Proofs

/-! # Proofs about the register window (20_memory.md): byte and 16-bit accesses, and the window's place -/

namespace Sys2Proof.Proofs

open Sys2Proof.Machine Sys2Proof.Safety

/-- Settles O7: the model steps on from every state, so it takes one access also where R190 supports no claim. -/
theorem stepTakesOneAccess : Obligations.StepTakesOneAccess := by
  intro s hpending _
  obtain ⟨t, ht, hleft⟩ := step_next s
  exact ⟨t, ht, hleft hpending⟩

/-! ## Byte writes -/

/-- CMD is the one offset 0x18 (R41). -/
theorem ne_cmdOffset {off : Offset} (h : off.toNat ≠ 0x18) : off ≠ cmdOffset :=
  fun he => h (congrArg BitVec.toNat he)

/-- A write to a reserved offset changes nothing (R45). -/
theorem step_wr8_reserved {off : Offset} (h : 0x18 < off.toNat) (v : Byte) (s : State) (rest : List HostAction) :
    step (s.withPending (.wr8 off v :: rest)) = .next (s.withPending rest) := by
  rw [step_wr8 (ne_cmdOffset (by omega)), memWrite8_above (by omega)]

/-- Settles O14: below CMD the step is `memWrite8`, which writes its one byte; above CMD it is no operation. -/
theorem hostWriteChangesOneByte : Obligations.HostWriteChangesOneByte := by
  intro s off v rest
  refine ⟨fun h => ?_, fun h => step_wr8_reserved h v s rest⟩
  obtain ⟨hread, hheld⟩ := memWrite8_same off v s h
  exact ⟨_, step_wr8 (ne_cmdOffset (by omega)) v s rest, hread, hheld, fun o ho => memWrite8_other off o v s ho,
    rfl, memWrite8_received off v s, memWrite8_draws off v s⟩

/-! ## A register is the little-endian sum of its bytes -/

/-- The low `n` digits of a number in base 256. -/
theorem sum_digits (x n : Nat) : ((List.range n).map (fun i => x / 256 ^ i % 256 * 256 ^ i)).sum = x % 256 ^ n := by
  induction n with
  | zero => simp [Nat.mod_one]
  | succ n ih => rw [List.sum_range_succ, ih, Nat.mod_pow_succ, Nat.mul_comm]

/-- A register is the sum of its eight bytes, each at its weight (R42). -/
theorem sum_byteOf (v : Word64) : ((List.range 8).map (fun i => (byteOf v i).toNat * 256 ^ i)).sum = v.toNat := by
  simp only [toNat_byteOf, sum_digits]
  exact Nat.mod_eq_of_lt v.isLt

/-- Any view `f` of the eight bytes of a register adds up to the register. -/
theorem toNat_eq_sum_of_eq_byteOf {v : Word64} {f : Nat → Byte} (h : ∀ i < 8, f i = byteOf v i) :
    v.toNat = ((List.range 8).map (fun i => (f i).toNat * 256 ^ i)).sum := by
  rw [← sum_byteOf v]
  congr 1
  exact List.map_congr_left fun i hi => by rw [h i (List.mem_range.mp hi)]

/-- Settles O16: the window shows the bytes of each register in order, and a register is the sum of its bytes. -/
theorem registersAreLittleEndian : Obligations.RegistersAreLittleEndian := fun s =>
  ⟨toNat_eq_sum_of_eq_byteOf fun _ hi => memRead8_opa hi s, toNat_eq_sum_of_eq_byteOf fun _ hi => memRead8_opb hi s,
    toNat_eq_sum_of_eq_byteOf fun _ hi => memRead8_res hi s⟩

/-! ## 16-bit accesses -/

/-- Runs of one step or more from states whose next steps agree are the same. -/
theorem runSteps_congr_step {s t : State} (h : step s = step t) (n : Nat) :
    runSteps (n + 1) s = runSteps (n + 1) t := by
  obtain ⟨u, hu, -⟩ := step_next t
  rw [runSteps_succ (h.trans hu), runSteps_succ hu]

theorem runSteps_one (s : State) : runSteps 1 s = step s := by
  obtain ⟨t, ht, -⟩ := step_next s
  rw [runSteps_succ ht, runSteps_zero, ht]

/-- Inside the window a 16-bit write begins as the write of its low byte and leaves its high byte's pending (R46). -/
theorem step_wr16 {off : Offset} (h : off ≠ 0x1F) (v : Word16) (s : State) (rest : List HostAction) :
    step (s.withPending (.wr16 off v :: rest)) =
      step (s.withPending (.wr8 off (v.extractLsb' 0 8) :: .wr8 (off + 1) (v.extractLsb' 8 8) :: rest)) :=
  if_neg h

/-- Inside the window a 16-bit read begins as the read of its low byte and leaves its high byte's pending (R46). -/
theorem step_rd16 {off : Offset} (h : off ≠ 0x1F) (s : State) (rest : List HostAction) :
    step (s.withPending (.rd16 off :: rest)) = step (s.withPending (.rd8 off :: .rd8 (off + 1) :: rest)) :=
  if_neg h

/-- Two byte reads deliver the two bytes in the order of the reads (R44). -/
theorem runSteps_rd8_rd8 (off off' : Offset) (s : State) (rest : List HostAction) :
    runSteps 2 (s.withPending (.rd8 off :: .rd8 off' :: rest)) =
      .next (((s.withPending rest).receive (memRead8 off s)).receive (memRead8 off' s)) := by
  rw [runSteps_succ (step_rd8 off s _), runSteps_one]
  rfl

/-- Settles O18: each 16-bit access begins as its first byte access and leaves its second one pending. -/
theorem sixteenBitIsTwoByteAccesses : Obligations.SixteenBitIsTwoByteAccesses := by
  intro s off v rest h
  have hread := runSteps_congr_step (step_rd16 h s rest) 1
  exact ⟨runSteps_congr_step (step_wr16 h v s rest) 1, hread, hread.trans (runSteps_rd8_rd8 off (off + 1) s rest)⟩

/-- At the last offset a 16-bit write touches one byte of the window, a reserved one (R47). -/
theorem step_wr16_last (v : Word16) (s : State) (rest : List HostAction) :
    step (s.withPending (.wr16 0x1F v :: rest)) = .next (s.withPending rest) := by
  rw [step_withPending, perform, if_pos rfl]
  exact step_wr8_reserved (off := 0x1F) (by decide) (v.extractLsb' 0 8) s rest

/-- Settles O19: at 0x17 the two byte writes are a write of RES byte 7 and a write to CMD (R47). -/
theorem sixteenBitAccessAtEdges : Obligations.SixteenBitAccessAtEdges := by
  refine ⟨fun s v rest i hi => ?_, fun s v rest => step_wr16_last v s rest⟩
  have hres : (0x17 : Offset) ≠ cmdOffset := ne_cmdOffset (by decide)
  rw [runSteps_congr_step (step_wr16 (by decide) v s rest), runSteps_succ (step_wr8 hres _ s _), runSteps_one]
  exact step_write_cmd hi (memWrite8 0x17 (v.extractLsb' 0 8) s) rest

/-! ## Word writes to the registers -/

/-- The low byte of word `n` of a register is its byte `2n` (R42). -/
theorem extractLsb'_word_low (v : Word64) (n : Nat) :
    (v.extractLsb' (16 * n) 16).extractLsb' 0 8 = byteOf v (2 * n) := by
  apply BitVec.eq_of_getLsbD_eq
  intro j hj
  simp [byteOf, hj, show j < 16 by omega, show 8 * (2 * n) = 16 * n by omega]

/-- The high byte of word `n` of a register is its byte `2n + 1` (R42). -/
theorem extractLsb'_word_high (v : Word64) (n : Nat) :
    (v.extractLsb' (16 * n) 16).extractLsb' 8 8 = byteOf v (2 * n + 1) := by
  apply BitVec.eq_of_getLsbD_eq
  intro j hj
  simp [byteOf, hj, show 8 + j < 16 by omega, show 16 * n + (8 + j) = 8 * (2 * n + 1) + j by omega]

theorem writeWords_succ (base n : Nat) (v : Word64) :
    writeWords base (n + 1) v =
      writeWords base n v ++ [.wr16 (BitVec.ofNat 5 (base + 2 * n)) (v.extractLsb' (16 * n) 16)] := by
  simp [writeWords, List.range_succ]

/-- Word writes below CMD reach the state of the byte writes of the same bytes (R42, R46). -/
theorem runSteps_writeWords {base n : Nat} (h : base + 2 * n ≤ 0x18) (v : Word64) (s : State)
    (rest : List HostAction) :
    runSteps (2 * n) (s.withPending (writeWords base n v ++ rest)) =
      .next ((writeWindow base v s (2 * n)).withPending rest) := by
  induction n generalizing rest with
  | zero => rfl
  | succ n ih =>
    have hlow : (BitVec.ofNat 5 (base + 2 * n)).toNat = base + 2 * n := toNat_offset (by omega)
    have hhigh : (BitVec.ofNat 5 (base + (2 * n + 1))).toNat = base + (2 * n + 1) := toNat_offset (by omega)
    have hnext : BitVec.ofNat 5 (base + 2 * n) + 1 = BitVec.ofNat 5 (base + (2 * n + 1)) :=
      (BitVec.ofNat_add ..).symm
    have hlast : BitVec.ofNat 5 (base + 2 * n) ≠ 0x1F := fun he => by
      have hnat : base + 2 * n = 0x1F := hlow.symm.trans (congrArg BitVec.toNat he)
      omega
    rw [writeWords_succ, List.append_assoc, Nat.mul_succ, runSteps_add (ih (by omega) _), List.singleton_append,
      runSteps_congr_step (step_wr16 hlast _ _ rest), hnext, extractLsb'_word_low, extractLsb'_word_high,
      runSteps_succ (step_wr8 (ne_cmdOffset (by omega)) _ _ _),
      runSteps_succ (step_wr8 (ne_cmdOffset (by omega)) _ _ _), runSteps_zero]
    rfl

/-- Byte writes from offset 0x10 load RES and nothing else (R41, R45). -/
theorem writeWindow_res (v : Word64) (s : State) {n : Nat} (hn : n ≤ 8) :
    writeWindow 0x10 v s n = s.putRes (loadBytes v s.res n) (markBytes s.resHeld n) := by
  induction n with
  | zero => rfl
  | succ n ih =>
    have hoff : (BitVec.ofNat 5 (0x10 + n)).toNat = 16 + n := toNat_offset (by omega)
    rw [writeWindow, ih (by omega), memWrite8, hoff, if_neg (by omega), if_neg (by omega), if_pos (by omega),
      Nat.add_sub_cancel_left]
    rfl

/-- Once eight bytes are written, every byte of the register holds a value (R33). -/
theorem markBytes_eight (m : BitVec 8) : markBytes m 8 = 0xFF := by
  have hall : markBytes 0#8 8 = BitVec.allOnes 8 := by decide
  rw [markBytes_eq_or, hall, BitVec.or_allOnes]
  rfl

/-- The eight byte writes and the four word writes of a register at `base` reach the same state. -/
theorem runs_agree_of_writeWindow {base : Nat} {v : Word64} {s u : State} (h : base + 8 ≤ 0x18)
    (hu : writeWindow base v s 8 = u) (rest : List HostAction) :
    ∃ t, runSteps 8 (s.withPending (writeBytes base 8 v ++ rest)) = .next t ∧
      runSteps 8 (s.withPending (writeWords base 4 v ++ rest)) = .next t ∧ t = u.withPending rest := by
  subst hu
  exact ⟨_, runSteps_writeBytes h v s rest, runSteps_writeWords (n := 4) h v s rest, rfl⟩

/-- Settles O17: both lists of writes are the eight `memWrite8` of `writeWindow`, which load the whole register. -/
theorem wordAndByteWritesAgree : Obligations.WordAndByteWritesAgree := by
  intro s v rest
  refine ⟨runs_agree_of_writeWindow (u := s.putOpa v 0xFF) (by decide) ?_ rest,
    runs_agree_of_writeWindow (u := s.putOpb v 0xFF) (by decide) ?_ rest,
    runs_agree_of_writeWindow (u := s.putRes v 0xFF) (by decide) ?_ rest⟩
  · rw [writeWindow_opa v s le_rfl, loadBytes_eight, markBytes_eight]
  · rw [writeWindow_opb v s le_rfl, loadBytes_eight, markBytes_eight]
  · rw [writeWindow_res v s le_rfl, loadBytes_eight, markBytes_eight]

/-! ## The window in the host's address space -/

theorem windowOffset_inside {k : Nat} (hk : k < 32) :
    windowOffset (Config.coreBase + k) = some (BitVec.ofNat 5 k) := by
  rw [windowOffset, if_pos (by omega), Nat.add_sub_cancel_left]

theorem windowOffset_outside {addr : Nat} (h : addr < Config.coreBase ∨ Config.coreBase + 32 ≤ addr) :
    windowOffset addr = none := by
  rw [windowOffset, if_neg (by omega)]

/-- Settles O20: an address outside the window has no offset, and an access without an offset is no action. -/
theorem windowSitsAtCoreBase : Obligations.WindowSitsAtCoreBase := by
  refine ⟨fun k hk => windowOffset_inside hk, fun addr v h => ?_⟩
  have hnone := windowOffset_outside h
  exact ⟨hnone, by rw [readAt, hnone]; rfl, by rw [writeAt, hnone]; rfl⟩

end Sys2Proof.Proofs

/-! # Proofs about the encoding (30_encoding.md): the opcode map, reserved bytes and the pseudo-instructions of R70 -/

namespace Sys2Proof.Proofs

open Sys2Proof.Machine Sys2Proof.Safety

/-! ## The opcode map: one byte for each command -/

/-- Every row of the map tests all eight bits, and its pattern is the encoding of its command (R62). -/
theorem opcodeTable_row : ∀ r ∈ opcodeTable, r.mask = 0xFF ∧ r.pattern = encodeByte r.instr := by
  decide

/-- A byte decodes to a command exactly when it is the command's encoding (R60, R62). -/
theorem decodeByte_eq_ok_iff (c : Byte) (i : Instr) : decodeByte c = .ok i ↔ c = encodeByte i := by
  refine ⟨fun h => ?_, fun h => h ▸ decodeByte_encodeByte i⟩
  unfold decodeByte at h
  split at h
  · next r hr =>
    cases h
    obtain ⟨hmask, hpattern⟩ := opcodeTable_row r (List.mem_of_find?_eq_some hr)
    have hmatch : (c &&& r.mask == r.pattern) = true := by simpa using List.find?_some hr
    calc c = c &&& 0xFF := BitVec.and_allOnes.symm
      _ = encodeByte r.instr := by rw [← hmask, eq_of_beq hmatch, hpattern]
  · cases h

/-- A byte that is rejected is rejected as reserved. -/
theorem decodeByte_cases (c : Byte) :
    (∃ i, decodeByte c = .ok i) ∨ decodeByte c = .rejected (.reservedCommand c) := by
  unfold decodeByte
  split
  · exact .inl ⟨_, rfl⟩
  · exact .inr rfl

/-- A command is its first byte, and decoding leaves the bytes after it (R60). -/
theorem decode_cons_eq_ok_iff (c : Byte) (bs : List Byte) (i : Instr) (rest : List Byte) :
    decode (c :: bs) = .ok (i, rest) ↔ decodeByte c = .ok i ∧ bs = rest := by
  rw [decode]
  cases decodeByte c with
  | ok j => simp
  | rejected e => simp

/-- Settles O2: no bytes are no command, and a first byte decodes exactly when it is the encoding. -/
theorem decodeEncodeAgree : Obligations.DecodeEncodeAgree := by
  intro bs i rest
  cases bs with
  | nil => simp [decode, encode]
  | cons c bs => rw [decode_cons_eq_ok_iff, decodeByte_eq_ok_iff, encode, List.singleton_append, List.cons.injEq]

/-- Settles O1: each code is the encoding of its operation, and a byte that decodes is that encoding. -/
theorem commandCodesDecode : Obligations.CommandCodesDecode := by
  refine ⟨decodeByte_encodeByte .shl64, decodeByte_encodeByte .shrLogical64, decodeByte_encodeByte .shrArith64,
    decodeByte_encodeByte .mulTrunc32, decodeByte_encodeByte .mulTrunc64, decodeByte_encodeByte .divU32,
    decodeByte_encodeByte .divU64, decodeByte_encodeByte .divS32, decodeByte_encodeByte .divS64,
    decodeByte_encodeByte .modU32, decodeByte_encodeByte .modU64, decodeByte_encodeByte .modS32,
    decodeByte_encodeByte .modS64, decodeByte_encodeByte .fdiv32, fun c d i hc hd => ?_⟩
  exact ((decodeByte_eq_ok_iff c i).mp hc).trans ((decodeByte_eq_ok_iff d i).mp hd).symm

/-! ## The field rules and the reserved bytes -/

/-- A byte is its three fields (R60). -/
theorem append_commandFields (c : Byte) : commandEng c ++ commandZ c ++ commandFn c = c := by
  rw [commandEng, commandZ, commandFn, BitVec.extractLsb'_append_extractLsb'_eq_extractLsb' (by decide)]
  exact (BitVec.extractLsb'_append_extractLsb'_eq_extractLsb' (by decide)).trans BitVec.extractLsb'_eq_self

/-- A byte with Z = 000 is its fields ENG and FN (R60). -/
theorem append_commandFields_of_z {c : Byte} (h : commandZ c = 0) : commandEng c ++ 0#3 ++ commandFn c = c :=
  (congrArg (fun z => commandEng c ++ z ++ commandFn c) h.symm).trans (append_commandFields c)

/-- The rules for FN accept only field pairs of the opcode map (R62, R63). -/
theorem exists_row_of_fnWellFormed :
    ∀ eng fn, fnWellFormed eng fn = true → ∃ r ∈ opcodeTable, commandFields r.instr = (eng, fn) := by
  decide

theorem commandWellFormed_encodeByte (i : Instr) : commandWellFormed (encodeByte i) = true := by
  cases i <;> rfl

/-- The field rules accept exactly the patterns of the opcode map (R60, R62, R63). -/
theorem commandWellFormed_iff_pattern (c : Byte) :
    commandWellFormed c = true ↔ ∃ r ∈ opcodeTable, r.pattern = c := by
  constructor
  · intro h
    obtain ⟨hz, hfn⟩ := Bool.and_eq_true_iff.mp h
    obtain ⟨r, hr, hfields⟩ := exists_row_of_fnWellFormed _ _ hfn
    refine ⟨r, hr, ?_⟩
    rw [(opcodeTable_row r hr).2, encodeByte, hfields]
    exact append_commandFields_of_z (eq_of_beq hz)
  · rintro ⟨r, hr, rfl⟩
    rw [(opcodeTable_row r hr).2]
    exact commandWellFormed_encodeByte r.instr

/-- Settles O3: the rules accept the patterns of the map, which are the encodings. -/
theorem fieldRulesAdmitExactlyTheMap : Obligations.FieldRulesAdmitExactlyTheMap := by
  intro c
  simp only [decodeByte_eq_ok_iff]
  constructor
  · intro h
    obtain ⟨r, hr, rfl⟩ := (commandWellFormed_iff_pattern c).mp h
    exact ⟨r.instr, (opcodeTable_row r hr).2⟩
  · rintro ⟨i, rfl⟩
    exact commandWellFormed_encodeByte i

/-- Decoding rejects exactly the bytes that break the field rules (R63, R66). -/
theorem decodeByte_eq_rejected_iff (c : Byte) :
    decodeByte c = .rejected (.reservedCommand c) ↔ commandWellFormed c = false := by
  rw [← Bool.not_eq_true, fieldRulesAdmitExactlyTheMap c]
  rcases decodeByte_cases c with ⟨i, h⟩ | h <;> simp [h]

/-- With Z = 000 the ranges of R66 are the pairs that the rules for FN refuse (R63). -/
theorem fnWellFormed_eq_false_iff : ∀ (eng : BitVec 2) (fn : BitVec 3),
    fnWellFormed eng fn = false ↔
      (0x03 ≤ (eng ++ 0#3 ++ fn).toNat ∧ (eng ++ 0#3 ++ fn).toNat ≤ 0x07) ∨
      (0x42 ≤ (eng ++ 0#3 ++ fn).toNat ∧ (eng ++ 0#3 ++ fn).toNat ≤ 0x47) ∨
      (0xC1 ≤ (eng ++ 0#3 ++ fn).toNat ∧ (eng ++ 0#3 ++ fn).toNat ≤ 0xC7) := by
  decide

/-- The reserved bytes of R66 are the bytes that break the field rules of R60 and R63. -/
theorem reservedByte_iff (c : Byte) : ReservedByte c ↔ commandWellFormed c = false := by
  unfold ReservedByte commandWellFormed
  by_cases hz : commandZ c = 0
  · have hfn := fnWellFormed_eq_false_iff (commandEng c) (commandFn c)
    rw [append_commandFields_of_z hz] at hfn
    simp [hz, hfn]
  · exact iff_of_true (.inl hz) (by rw [beq_false_of_ne hz, Bool.false_and])

theorem reservedByte_iff_rejected (c : Byte) : ReservedByte c ↔ decodeByte c = .rejected (.reservedCommand c) :=
  (reservedByte_iff c).trans (decodeByte_eq_rejected_iff c).symm

/-- Among the 256 bytes the field rules accept the patterns of the opcode map, each once (R62, R63). -/
theorem filter_commandWellFormed_perm :
    ((List.range 256).filter (fun n => commandWellFormed (BitVec.ofNat 8 n))).Perm
      (opcodeTable.map (fun r => r.pattern.toNat)) := by
  refine (List.perm_ext_iff_of_nodup (List.nodup_range.filter _) (by decide)).mpr fun n => ?_
  rw [List.mem_filter, List.mem_range, List.mem_map, commandWellFormed_iff_pattern]
  constructor
  · rintro ⟨hn, r, hr, hpattern⟩
    exact ⟨r, hr, by rw [hpattern, BitVec.toNat_ofNat, Nat.mod_eq_of_lt hn]⟩
  · rintro ⟨r, hr, rfl⟩
    exact ⟨r.pattern.isLt, r, hr, by rw [BitVec.ofNat_toNat, BitVec.setWidth_eq]⟩

/-- Of the 256 bytes the fourteen of the opcode map pass the field rules, so 242 break them. -/
theorem length_filter_not_commandWellFormed :
    ((List.range 256).filter (fun n => !commandWellFormed (BitVec.ofNat 8 n))).length = 242 := by
  have hcodes : ((List.range 256).filter (fun n => commandWellFormed (BitVec.ofNat 8 n))).length = 14 :=
    filter_commandWellFormed_perm.length_eq
  have hsplit := List.length_eq_length_filter_add (l := List.range 256)
    (fun n => commandWellFormed (BitVec.ofNat 8 n))
  rw [hcodes, List.length_range] at hsplit
  omega

/-- A reserved command is no operation and its write completes (R66). -/
theorem step_write_reserved {c : Byte} {e : DecodeError} (h : decodeByte c = .rejected e) (s : State)
    (rest : List HostAction) : step (s.withPending (.wr8 cmdOffset c :: rest)) = .next (s.withPending rest) := by
  rw [step_withPending, perform, performWrite8, if_pos rfl, performCommand, h]

/-- Settles O4: the ranges of R66 are what the field rules refuse; a rejected byte's write is no operation. -/
theorem reservedBytesDoNothing : Obligations.ReservedBytesDoNothing := by
  refine ⟨reservedByte_iff_rejected, ?_,
    fun c s rest h => step_write_reserved ((reservedByte_iff_rejected c).mp h) s rest⟩
  rw [← length_filter_not_commandWellFormed]
  congr 2
  funext n
  rw [Bool.eq_iff_iff, beq_iff_eq, decodeByte_eq_rejected_iff, Bool.not_eq_true']

/-! ## Short loads -/

/-- A value of `n` bytes loaded in a register leaves the bytes from `n` up (R70, R188). -/
theorem loadBytes_setWidth {n : Nat} (hn : n ≤ 8) (v : BitVec (8 * n)) (r : Word64) :
    loadBytes (v.setWidth 64) r n = (r.extractLsb' (8 * n) (64 - 8 * n) ++ v).cast (by omega) := by
  apply BitVec.eq_of_getLsbD_eq
  intro k hk
  rw [getLsbD_loadBytes _ _ _ _ hk, BitVec.getLsbD_cast, BitVec.getLsbD_append]
  by_cases h : k < 8 * n
  · simp [h, hk]
  · simp [h, show k - 8 * n < 64 - 8 * n by omega, show 8 * n + (k - 8 * n) = k by omega]

/-- Byte writes of the low bytes of OPA change those bytes and their marks, and nothing else (R41, R45). -/
theorem runSteps_writeBytes_opa {n : Nat} (hn : n ≤ 8) (v : Word64) (s : State) (rest : List HostAction) :
    runSteps n (s.withPending (writeBytes 0x00 n v ++ rest)) =
      .next ((s.withPending rest).putOpa (loadBytes v s.opa n) (s.opaHeld ||| markBytes 0#8 n)) := by
  rw [runSteps_writeBytes (by omega), writeWindow_opa v s hn, markBytes_eq_or]
  rfl

/-- Byte writes of the low bytes of OPB change those bytes and their marks, and nothing else (R41, R45). -/
theorem runSteps_writeBytes_opb {n : Nat} (hn : n ≤ 8) (v : Word64) (s : State) (rest : List HostAction) :
    runSteps n (s.withPending (writeBytes 0x08 n v ++ rest)) =
      .next ((s.withPending rest).putOpb (loadBytes v s.opb n) (s.opbHeld ||| markBytes 0#8 n)) := by
  rw [runSteps_writeBytes (by omega), writeWindow_opb v s hn, markBytes_eq_or]
  rfl

/-- `ldcnt` is the load of one byte (R70). -/
theorem ldcnt_eq_writeBytes (n : Byte) : ldcnt n = writeBytes 0x08 1 (n.setWidth 64) := by
  simp [ldcnt, writeBytes, byteOf_zero_setWidth]

/-- Settles O22: each load is byte writes of the low bytes of its register. -/
theorem shortLoadsKeepUpperBytes : Obligations.ShortLoadsKeepUpperBytes := by
  intro s rest v n
  have hmark4 : markBytes 0#8 4 = 0x0F := rfl
  have hmark1 : markBytes 0#8 1 = 0x01 := rfl
  have hload4 (r : Word64) : loadBytes (v.setWidth 64) r 4 = r.extractLsb' 32 32 ++ v :=
    loadBytes_setWidth (n := 4) (by decide) v r
  have hload1 (r : Word64) : loadBytes (n.setWidth 64) r 1 = r.extractLsb' 8 56 ++ n :=
    loadBytes_setWidth (n := 1) (by decide) n r
  refine ⟨⟨_, runSteps_writeBytes_opa (by decide) _ s rest, ?_⟩,
    ⟨_, runSteps_writeBytes_opb (by decide) _ s rest, ?_⟩, ⟨_, ?_, rfl⟩⟩
  · rw [hload4, hmark4]
  · rw [hload4, hmark4]
  · rw [ldcnt_eq_writeBytes, runSteps_writeBytes_opb (by decide), hload1, hmark1]

/-! ## Copies of RES through the host -/

/-- The lines of `mvra64` and `mvrb64`: bytes 0 to n-1 of RES copied to the offsets from `base` up (R70). -/
def copyRes (base n : Nat) : List HostAction :=
  (List.range n).map (fun i => .copy (BitVec.ofNat 5 (0x10 + i)) (BitVec.ofNat 5 (base + i)))

theorem mvra64_eq_copyRes : mvra64 = copyRes 0x00 8 := rfl

theorem mvrb64_eq_copyRes : mvrb64 = copyRes 0x08 8 := rfl

theorem copyRes_succ (base n : Nat) :
    copyRes base (n + 1) = copyRes base n ++ [.copy (BitVec.ofNat 5 (0x10 + n)) (BitVec.ofNat 5 (base + n))] := by
  simp [copyRes, List.range_succ]

/-- A copy is a read and then a write of the byte read (R70). -/
theorem runSteps_copy {dst : Offset} (h : dst ≠ cmdOffset) (src : Offset) (s : State) (rest : List HostAction) :
    runSteps 2 (s.withPending (.copy src dst :: rest)) =
      .next ((memWrite8 dst (memRead8 src s) (performRead8 src s)).withPending rest) := by
  have hread : step (s.withPending (.copy src dst :: rest)) =
      .next ((performRead8 src s).withPending (.wr8 dst (memRead8 src s) :: rest)) := rfl
  rw [runSteps_succ hread, runSteps_one, step_wr8 h]

/-- Bytes written below RES leave RES. -/
theorem writeWindow_keeps_res {base n : Nat} (h : base + n ≤ 0x10) (v : Word64) (s : State) :
    (writeWindow base v s n).res = s.res := by
  induction n with
  | zero => rfl
  | succ n ih =>
    have hoff : (BitVec.ofNat 5 (base + n)).toNat = base + n := toNat_offset (by omega)
    rw [writeWindow, memWrite8_res (by omega), ih (by omega)]

/-- What the host receives does not change what its writes do. -/
theorem writeWindow_receive (base n : Nat) (v : Word64) (s : State) (b : Byte) :
    writeWindow base v (s.receive b) n = (writeWindow base v s n).receive b := by
  induction n with
  | zero => rfl
  | succ n ih =>
    rw [writeWindow, ih, writeWindow, memWrite8, memWrite8]
    split_ifs <;> rfl

/-- Copies of RES to offsets below it do what the reads of RES and then the writes of its bytes do (R70). -/
theorem runSteps_copyRes {base n : Nat} (h : base + n ≤ 0x10) (hn : n ≤ 8) (s : State) (rest : List HostAction) :
    runSteps (2 * n) (s.withPending (copyRes base n ++ rest)) =
      .next ((writeWindow base s.res (readWindow 0x10 s n) n).withPending rest) := by
  induction n generalizing rest with
  | zero => rfl
  | succ n ih =>
    have hdst : (BitVec.ofNat 5 (base + n)).toNat = base + n := toNat_offset (by omega)
    have hsrc : memRead8 (BitVec.ofNat 5 (0x10 + n)) (writeWindow base s.res (readWindow 0x10 s n) n) =
        byteOf s.res n := by
      rw [memRead8_res (by omega), writeWindow_keeps_res (by omega), readWindow_res]
    have hread : memRead8 (BitVec.ofNat 5 (0x10 + n)) (readWindow 0x10 s n) = byteOf s.res n := by
      rw [memRead8_res (by omega), readWindow_res]
    rw [copyRes_succ, List.append_assoc, Nat.mul_succ, runSteps_add (ih (by omega) (by omega) _),
      List.singleton_append, runSteps_copy (ne_cmdOffset (by omega)), performRead8, hsrc, readWindow, performRead8,
      hread, writeWindow, writeWindow_receive]

/-- Reads of the window leave the registers (R44). -/
theorem sameRegisters_readWindow (base : Nat) (s : State) (n : Nat) : SameRegisters s (readWindow base s n) := by
  induction n with
  | zero => exact .refl s
  | succ n ih => exact ⟨ih.opa, ih.opb, ih.res, ih.opaHeld, ih.opbHeld, ih.resHeld⟩

/-- Settles O21: the copies write all eight bytes of RES to the operand register and to nothing else. -/
theorem moveResultToOperand : Obligations.MoveResultToOperand := by
  intro s rest
  have hregs := sameRegisters_readWindow 0x10 s 8
  rw [mvra64_eq_copyRes, mvrb64_eq_copyRes]
  refine ⟨⟨_, runSteps_copyRes (by decide) le_rfl s rest, ?_⟩, ⟨_, runSteps_copyRes (by decide) le_rfl s rest, ?_⟩⟩
  · rw [writeWindow_opa _ _ le_rfl, loadBytes_eight, markBytes_eight]
    exact ⟨rfl, rfl, hregs.opb, hregs.res, rfl⟩
  · rw [writeWindow_opb _ _ le_rfl, loadBytes_eight, markBytes_eight]
    exact ⟨rfl, rfl, hregs.opa, hregs.res, rfl⟩

end Sys2Proof.Proofs

/-! # Proofs about the Shift Engine (40_shift.md): results, laws, and the two-phase structure of R81 -/

namespace Sys2Proof.Proofs

open Sys2Proof.Machine Sys2Proof.Safety

/-! ## How a command ends, from its functional result -/

/-- A command with a defined result completes with it in RES and nothing else changed (R23, R61). -/
theorem completesWith_of_execValue {i : Instr} {s : State} {v : Word64} (h : execValue i s.opa s.opb = some v) :
    CompletesWith i s v := by
  have hexec := exec_of_execValue i s h
  exact ⟨_, hexec, rfl, rfl, fun hheld => if_pos hheld, commandsChangeOnlyRes i s _ hexec⟩

/-- A command without a defined result completes with the next free value in RES and nothing else changed
(R85, R124). -/
theorem completesUnspecified_of_execValue {i : Instr} {s : State} (h : execValue i s.opa s.opb = none) :
    CompletesUnspecified i s := by
  have hexec := exec_eq_complete i s
  refine ⟨_, hexec, ?_, ?_, commandsChangeOnlyRes i s _ hexec⟩
  · rw [h]; rfl
  · rw [h]; rfl

/-! ## The three shifts as functions -/

theorem toNat_shiftCount (b : Word64) : (shiftCount b).toNat = b.toNat % 256 :=
  BitVec.toNat_setWidth 8 b

theorem shl64_of_lt (x : Word64) {n : Byte} (h : n.toNat < 64) : shl64 x n = some (x <<< n.toNat) := if_pos h

theorem shrLogical64_of_lt (x : Word64) {n : Byte} (h : n.toNat < 64) :
    shrLogical64 x n = some (x >>> n.toNat) := if_pos h

theorem shrArith64_of_lt (x : Word64) {n : Byte} (h : n.toNat < 64) :
    shrArith64 x n = some (x.sshiftRight n.toNat) := if_pos h

/-- No shift by 64 or more has a defined result (R85). -/
theorem shiftBy_of_ge (f : Nat → Word64) {n : Byte} (h : 64 ≤ n.toNat) : shiftBy f n = none :=
  if_neg (Nat.not_lt.mpr h)

/-- The sign bit as R84 and R86 name it. -/
theorem msb_eq_getLsbD_63 (x : Word64) : x.msb = x.getLsbD 63 := BitVec.msb_eq_getLsbD_last x

/-- The arithmetic shift as a number: the floor of the division by a power of two (R84). -/
theorem toInt_sshiftRight_eq_fdiv (x : Word64) (n : Nat) : (x.sshiftRight n).toInt = Int.fdiv x.toInt (2 ^ n) := by
  rw [BitVec.toInt_sshiftRight, Int.shiftRight_eq_div_pow, Int.fdiv_eq_ediv_of_nonneg _ (by positivity)]
  push_cast
  rfl

/-- The arithmetic shift bit by bit (R84). -/
theorem getLsbD_sshiftRight_eq_ite (x : Word64) (n : Nat) {i : Nat} (hi : i < 64) :
    (x.sshiftRight n).getLsbD i = if i + n ≤ 63 then x.getLsbD (i + n) else x.getLsbD 63 := by
  rw [BitVec.getLsbD_sshiftRight, decide_eq_false (by omega), Bool.not_false, Bool.true_and, msb_eq_getLsbD_63,
    Nat.add_comm n i]
  exact if_congr (by omega) rfl rfl

/-- Settles O31: the result is the register shifted left by the count, as a number and bit by bit. -/
theorem shl64Result : Obligations.Shl64Result := by
  refine ⟨rfl, fun s hn => ?_⟩
  rw [← toNat_shiftCount] at hn ⊢
  refine ⟨_, completesWith_of_execValue (shl64_of_lt s.opa hn), ?_, fun i hi => ?_⟩
  · rw [BitVec.toNat_shiftLeft, Nat.shiftLeft_eq]
  · rw [BitVec.getLsbD_shiftLeft, decide_eq_true hi, Bool.true_and, ← decide_not]
    simp only [Nat.not_lt]

/-- Settles O32: the result is the register shifted right by the count; bits from above the top are 0. -/
theorem shrLogical64Result : Obligations.ShrLogical64Result := by
  refine ⟨rfl, fun s hn => ?_⟩
  rw [← toNat_shiftCount] at hn ⊢
  refine ⟨_, completesWith_of_execValue (shrLogical64_of_lt s.opa hn), ?_, fun i hi => ?_⟩
  · rw [BitVec.toNat_ushiftRight, Nat.shiftRight_eq_div_pow]
  · rw [BitVec.getLsbD_ushiftRight, Nat.add_comm]
    by_cases h : i + (shiftCount s.opb).toNat ≤ 63
    · simp [h]
    · simp [h, BitVec.getLsbD_of_ge s.opa _ (show 64 ≤ i + (shiftCount s.opb).toNat by omega)]

/-- Settles O33: the result is the register shifted right arithmetically by the count. -/
theorem shrArith64Result : Obligations.ShrArith64Result := by
  refine ⟨rfl, fun s hn => ?_⟩
  rw [← toNat_shiftCount] at hn ⊢
  exact ⟨_, completesWith_of_execValue (shrArith64_of_lt s.opa hn), toInt_sshiftRight_eq_fdiv _ _,
    fun i hi => getLsbD_sshiftRight_eq_ite _ _ hi⟩

/-- Settles O34: a shift by 64 or more has no defined result. -/
theorem shiftBy64OrMoreUnspecified : Obligations.ShiftBy64OrMoreUnspecified := by
  intro s hn
  rw [← toNat_shiftCount] at hn
  exact ⟨completesUnspecified_of_execValue (shiftBy_of_ge _ hn),
    completesUnspecified_of_execValue (shiftBy_of_ge _ hn), completesUnspecified_of_execValue (shiftBy_of_ge _ hn)⟩

/-! ## The laws -/

/-- Shifting left and back clears the top `n` bits (R86). -/
theorem shiftLeft_ushiftRight_eq_and (x : Word64) (n : Nat) :
    (x <<< n) >>> n = x &&& BitVec.ofNat 64 (2 ^ (64 - n) - 1) := by
  apply BitVec.eq_of_getLsbD_eq
  intro i hi
  rw [BitVec.getLsbD_ushiftRight, BitVec.getLsbD_shiftLeft, BitVec.getLsbD_and, BitVec.getLsbD_ofNat,
    Nat.testBit_two_pow_sub_one, Nat.add_sub_cancel_left, decide_eq_true hi, Bool.true_and,
    decide_eq_false (Nat.not_lt.mpr (Nat.le_add_right n i)), Bool.not_false, Bool.and_true, Bool.and_comm]
  congr 1
  exact decide_eq_decide.mpr (by omega)

/-- Shifting right and back clears the low `n` bits (R86). -/
theorem ushiftRight_shiftLeft_eq_and (x : Word64) (n : Nat) :
    (x >>> n) <<< n = x &&& ~~~ BitVec.ofNat 64 (2 ^ n - 1) := by
  apply BitVec.eq_of_getLsbD_eq
  intro i hi
  rw [BitVec.getLsbD_shiftLeft, BitVec.getLsbD_ushiftRight, BitVec.getLsbD_and, BitVec.getLsbD_not,
    BitVec.getLsbD_ofNat, Nat.testBit_two_pow_sub_one, decide_eq_true hi, Bool.true_and, Bool.true_and, Bool.true_and]
  by_cases h : i < n
  · simp [h]
  · simp [h, Nat.add_sub_cancel' (Nat.not_lt.mp h)]

/-- A left shift is the truncated product by a power of two (R86, R102). -/
theorem shiftLeft_eq_mulTrunc (x : Word64) (n : Nat) : x <<< n = mulTrunc x (BitVec.ofNat 64 (2 ^ n)) := by
  apply BitVec.eq_of_toNat_eq
  rw [mulTrunc, BitVec.toNat_shiftLeft, BitVec.toNat_ofNat, BitVec.toNat_ofNat, Nat.mul_mod_mod, Nat.shiftLeft_eq]

/-- A logical right shift is the quotient by a power of two (R86, R114). -/
theorem ushiftRight_eq_udivN (x : Word64) {n : Nat} (h : n < 64) : x >>> n = udivN x (BitVec.ofNat 64 (2 ^ n)) := by
  have hpow : (BitVec.ofNat 64 (2 ^ n)).toNat = 2 ^ n :=
    (BitVec.toNat_ofNat _ _).trans (Nat.mod_eq_of_lt (Nat.pow_lt_pow_right (by decide) h))
  have hne : BitVec.ofNat 64 (2 ^ n) ≠ 0 := fun h0 => by
    rw [h0] at hpow
    exact absurd hpow (Nat.two_pow_pos n).ne
  rw [udivN, if_neg hne, hpow, ← Nat.shiftRight_eq_div_pow]
  apply BitVec.eq_of_toNat_eq
  rw [← BitVec.toNat_ushiftRight, BitVec.ofNat_toNat, BitVec.setWidth_eq]

/-- Settles O35: each law is that of the shift of the register value. -/
theorem shiftLaws : Obligations.ShiftLaws := by
  refine ⟨fun x n m h => ?_, fun x n h => ?_⟩
  · have hsum : (n + m).toNat = n.toNat + m.toNat := by
      rw [BitVec.toNat_add]; omega
    have hn : n.toNat < 64 := by omega
    have hm : m.toNat < 64 := by omega
    rw [← hsum] at h
    rw [shl64_of_lt x hn, shrLogical64_of_lt x hn, shrArith64_of_lt x hn, shl64_of_lt x h, shrLogical64_of_lt x h,
      shrArith64_of_lt x h, hsum, BitVec.shiftLeft_add, BitVec.shiftRight_add, BitVec.sshiftRight_add]
    exact ⟨shl64_of_lt _ hm, shrLogical64_of_lt _ hm, shrArith64_of_lt _ hm⟩
  · rw [shl64_of_lt x h, shrLogical64_of_lt x h, shrArith64_of_lt x h, shrLogical64_of_lt _ h, ← msb_eq_getLsbD_63]
    refine ⟨?_, ?_, fun hsign => ?_, fun hsign => ?_, ?_, ?_⟩
    · exact (shrLogical64_of_lt _ h).trans (congrArg some (shiftLeft_ushiftRight_eq_and x _))
    · exact (shl64_of_lt _ h).trans (congrArg some (ushiftRight_shiftLeft_eq_and x _))
    · rw [BitVec.sshiftRight_eq_of_msb_false hsign]
    · rw [BitVec.sshiftRight_eq_of_msb_true hsign]; rfl
    · rw [shiftLeft_eq_mulTrunc]
    · rw [ushiftRight_eq_udivN x h]

/-! ## The two-phase word shifter -/

/-- The right shift of 64 bits that lets the bit `fill` in at the top: what R81 computes for either fill word. -/
def shiftRightFill (fill : Bool) (x : Word64) (n : Nat) : Word64 := if fill then ~~~(~~~x >>> n) else x >>> n

theorem shiftRightFill_false (x : Word64) (n : Nat) : shiftRightFill false x n = x >>> n := rfl

theorem shiftRightFill_sign (x : Word64) (n : Nat) : shiftRightFill (x.getLsbD 63) x n = x.sshiftRight n := by
  rw [← msb_eq_getLsbD_63]
  cases hsign : x.msb with
  | false => exact (BitVec.sshiftRight_eq_of_msb_false hsign).symm
  | true => exact (BitVec.sshiftRight_eq_of_msb_true hsign).symm

theorem shiftRightFill_zero (fill : Bool) (x : Word64) : shiftRightFill fill x 0 = x := by
  cases fill <;> simp [shiftRightFill]

theorem shiftRightFill_add (fill : Bool) (x : Word64) (n m : Nat) :
    shiftRightFill fill x (n + m) = shiftRightFill fill (shiftRightFill fill x n) m := by
  cases fill <;> simp [shiftRightFill, BitVec.shiftRight_add]

/-- Bits come from `n` above, and the fill bit from above the top. -/
theorem getLsbD_shiftRightFill (fill : Bool) (x : Word64) (n : Nat) {i : Nat} (hi : i < 64) :
    (shiftRightFill fill x n).getLsbD i = if i + n < 64 then x.getLsbD (i + n) else fill := by
  rw [Nat.add_comm]
  by_cases h : n + i < 64
  · cases fill <;> simp [shiftRightFill, h, hi]
  · cases fill <;> simp [shiftRightFill, h, hi, BitVec.getLsbD_of_ge x (n + i) (Nat.not_lt.mp h)]

/-- The four words, put together again, are the value (R81). -/
theorem ofShiftWords_toShiftWords (x : Word64) : ofShiftWords (toShiftWords x) = x := by
  rw [ofShiftWords, toShiftWords]
  dsimp only
  rw [BitVec.extractLsb'_append_extractLsb'_eq_extractLsb' (by decide),
    BitVec.extractLsb'_append_extractLsb'_eq_extractLsb' (by decide)]
  exact (BitVec.extractLsb'_append_extractLsb'_eq_extractLsb' (by decide)).trans BitVec.extractLsb'_eq_self

/-- A shift by a whole word leaves nothing of it. -/
theorem ushiftRight_sixteen (w : Word16) : w >>> 16 = 0 := BitVec.ushiftRight_eq_zero le_rfl

/-- A whole-word move is the fine phase by 16 bits. -/
theorem coarseLeft_eq_fineLeft (w : ShiftWords) : coarseLeft w = fineLeft 16 w := by
  simp [coarseLeft, fineLeft]

theorem coarseRight_eq_fineRight (fill : Word16) (w : ShiftWords) : coarseRight fill w = fineRight 16 fill w := by
  simp [coarseRight, fineRight, ushiftRight_sixteen]

/-- A word shifted left with bits donated from below, bit by bit (R81). -/
theorem getLsbD_donatedLeft (w below : Word16) {r j : Nat} (hr : r ≤ 16) (hj : j < 16) :
    ((w <<< r) ||| (below >>> (16 - r))).getLsbD j =
      if j < r then below.getLsbD (16 - r + j) else w.getLsbD (j - r) := by
  rw [BitVec.getLsbD_or, BitVec.getLsbD_shiftLeft, BitVec.getLsbD_ushiftRight, decide_eq_true hj, Bool.true_and]
  split_ifs with h
  · simp [h]
  · simp [h, BitVec.getLsbD_of_ge below (16 - r + j) (by omega)]

/-- A word of a left shift: the same word shifted, with the bits the word below donates (R81). -/
theorem extractLsb'_shiftLeft_word (x : Word64) {r : Nat} (hr : r ≤ 16) {m : Nat} (hm : m + 32 ≤ 64) :
    (x <<< r).extractLsb' (m + 16) 16 = (x.extractLsb' (m + 16) 16 <<< r) ||| (x.extractLsb' m 16 >>> (16 - r)) := by
  apply BitVec.eq_of_getLsbD_eq
  intro j hj
  rw [getLsbD_donatedLeft _ _ hr hj, BitVec.getLsbD_extractLsb', BitVec.getLsbD_shiftLeft, BitVec.getLsbD_extractLsb',
    BitVec.getLsbD_extractLsb', decide_eq_true hj, decide_eq_true (by omega), decide_eq_false (by omega),
    Bool.not_false, Bool.true_and, Bool.true_and, Bool.true_and]
  split_ifs with h
  · rw [decide_eq_true (by omega), Bool.true_and]
    congr 1
    omega
  · rw [decide_eq_true (by omega), Bool.true_and, Nat.add_sub_assoc (Nat.not_lt.mp h)]

/-- No word donates to the lowest one (R81). -/
theorem extractLsb'_shiftLeft_low (x : Word64) (r : Nat) :
    (x <<< r).extractLsb' 0 16 = x.extractLsb' 0 16 <<< r := by
  apply BitVec.eq_of_getLsbD_eq
  intro j hj
  rw [BitVec.getLsbD_extractLsb', BitVec.getLsbD_shiftLeft, BitVec.getLsbD_shiftLeft, BitVec.getLsbD_extractLsb',
    Nat.zero_add, Nat.zero_add, decide_eq_true hj, decide_eq_true (show j < 64 by omega),
    decide_eq_true (show j - r < 16 by omega)]
  rfl

/-- The fine phase to the left is the shift, word by word (R81). -/
theorem toShiftWords_shiftLeft (x : Word64) {r : Nat} (hr : r ≤ 16) :
    toShiftWords (x <<< r) = fineLeft r (toShiftWords x) := by
  rw [toShiftWords, extractLsb'_shiftLeft_low, extractLsb'_shiftLeft_word x hr (m := 0) (by decide),
    extractLsb'_shiftLeft_word x hr (m := 16) (by decide), extractLsb'_shiftLeft_word x hr (m := 32) (by decide)]
  rfl

/-- A word shifted right with bits donated from above, bit by bit (R81). -/
theorem getLsbD_donatedRight (w above : Word16) {r j : Nat} (hr : r ≤ 16) (hj : j < 16) :
    ((w >>> r) ||| (above <<< (16 - r))).getLsbD j =
      if j + r < 16 then w.getLsbD (j + r) else above.getLsbD (j + r - 16) := by
  rw [BitVec.getLsbD_or, BitVec.getLsbD_ushiftRight, BitVec.getLsbD_shiftLeft, decide_eq_true hj, Bool.true_and,
    Nat.add_comm r j]
  split_ifs with h
  · simp [show j < 16 - r by omega]
  · simp [show ¬ j < 16 - r by omega, show j - (16 - r) = j + r - 16 by omega,
      BitVec.getLsbD_of_ge w (j + r) (Nat.not_lt.mp h)]

/-- A word of a right shift: the same word shifted, with the bits the word above donates (R81). -/
theorem extractLsb'_shiftRightFill_word (fill : Bool) (x : Word64) {r : Nat} (hr : r ≤ 16) {m : Nat}
    (hm : m + 32 ≤ 64) : (shiftRightFill fill x r).extractLsb' m 16 =
      (x.extractLsb' m 16 >>> r) ||| (x.extractLsb' (m + 16) 16 <<< (16 - r)) := by
  apply BitVec.eq_of_getLsbD_eq
  intro j hj
  rw [BitVec.getLsbD_extractLsb', getLsbD_shiftRightFill _ _ _ (by omega), if_pos (by omega),
    getLsbD_donatedRight _ _ hr hj, BitVec.getLsbD_extractLsb', BitVec.getLsbD_extractLsb', decide_eq_true hj,
    Bool.true_and, Nat.add_assoc]
  split_ifs with h
  · rw [decide_eq_true h, Bool.true_and]
  · rw [decide_eq_true (by omega), Bool.true_and, Nat.add_assoc, Nat.add_sub_cancel' (Nat.not_lt.mp h)]

/-- The top word takes its donated bits from the fill word (R81). -/
theorem extractLsb'_shiftRightFill_top (fill : Bool) (x : Word64) {r : Nat} (hr : r ≤ 16) :
    (shiftRightFill fill x r).extractLsb' 48 16 =
      (x.extractLsb' 48 16 >>> r) ||| (BitVec.fill 16 fill <<< (16 - r)) := by
  apply BitVec.eq_of_getLsbD_eq
  intro j hj
  rw [BitVec.getLsbD_extractLsb', getLsbD_shiftRightFill _ _ _ (by omega), getLsbD_donatedRight _ _ hr hj,
    BitVec.getLsbD_extractLsb', BitVec.getLsbD_fill, decide_eq_true hj, Bool.true_and, Nat.add_assoc]
  by_cases h : j + r < 16
  · rw [if_pos (by omega), if_pos h, decide_eq_true h, Bool.true_and]
  · rw [if_neg (by omega), if_neg h, decide_eq_true (by omega), Bool.and_true]

/-- The fine phase to the right is the shift, word by word (R81). -/
theorem toShiftWords_shiftRightFill (fill : Bool) (x : Word64) {r : Nat} (hr : r ≤ 16) :
    toShiftWords (shiftRightFill fill x r) = fineRight r (BitVec.fill 16 fill) (toShiftWords x) := by
  rw [toShiftWords, extractLsb'_shiftRightFill_word fill x hr (m := 0) (by decide),
    extractLsb'_shiftRightFill_word fill x hr (m := 16) (by decide),
    extractLsb'_shiftRightFill_word fill x hr (m := 32) (by decide), extractLsb'_shiftRightFill_top fill x hr]
  rfl

/-- The coarse phase to the left (R81). -/
theorem toShiftWords_shiftLeft_words (x : Word64) (k : Nat) :
    toShiftWords (x <<< (16 * k)) = Nat.repeat coarseLeft k (toShiftWords x) := by
  induction k with
  | zero => rw [Nat.mul_zero, BitVec.shiftLeft_zero]; rfl
  | succ k ih =>
    rw [Nat.mul_succ, BitVec.shiftLeft_add, toShiftWords_shiftLeft _ le_rfl, ih, ← coarseLeft_eq_fineLeft]
    rfl

/-- The coarse phase to the right (R81). -/
theorem toShiftWords_shiftRightFill_words (fill : Bool) (x : Word64) (k : Nat) :
    toShiftWords (shiftRightFill fill x (16 * k)) =
      Nat.repeat (coarseRight (BitVec.fill 16 fill)) k (toShiftWords x) := by
  induction k with
  | zero => rw [Nat.mul_zero, shiftRightFill_zero]; rfl
  | succ k ih =>
    rw [Nat.mul_succ, shiftRightFill_add, toShiftWords_shiftRightFill _ _ le_rfl, ih, ← coarseRight_eq_fineRight]
    rfl

theorem barrelLeft_eq_shiftLeft (x : Word64) (n : Nat) : barrelLeft x n = x <<< n := by
  have hfine := (Nat.mod_lt n (show 0 < 16 by decide)).le
  rw [barrelLeft, ← toShiftWords_shiftLeft_words, ← toShiftWords_shiftLeft _ hfine, ofShiftWords_toShiftWords,
    ← BitVec.shiftLeft_add, Nat.div_add_mod]

theorem barrelRight_eq_shiftRightFill (fill : Bool) (x : Word64) (n : Nat) :
    barrelRight (BitVec.fill 16 fill) x n = shiftRightFill fill x n := by
  have hfine := (Nat.mod_lt n (show 0 < 16 by decide)).le
  rw [barrelRight, ← toShiftWords_shiftRightFill_words, ← toShiftWords_shiftRightFill _ _ hfine,
    ofShiftWords_toShiftWords, ← shiftRightFill_add, Nat.div_add_mod]

theorem signFill_eq_fill (x : Word64) : signFill x = BitVec.fill 16 (x.getLsbD 63) := by
  rw [signFill, BitVec.fill_eq]; rfl

/-- Settles O36: the phases compute the left shift, and the right shift that lets the fill word's bit in, which is
0 or the sign bit. -/
theorem barrelShifterMeetsContract : Obligations.BarrelShifterMeetsContract := by
  intro x n h
  have hzero : barrelRight 0x0000 x n.toNat = x >>> n.toNat :=
    (barrelRight_eq_shiftRightFill false x _).trans (shiftRightFill_false x _)
  have hsign : barrelRight (signFill x) x n.toNat = x.sshiftRight n.toNat := by
    rw [signFill_eq_fill, barrelRight_eq_shiftRightFill, shiftRightFill_sign]
  rw [barrelLeft_eq_shiftLeft, hzero, hsign]
  exact ⟨shl64_of_lt x h, shrLogical64_of_lt x h, shrArith64_of_lt x h⟩

end Sys2Proof.Proofs

/-! # Proofs about the Multiply Engine (41_multiply.md): results, laws, and the partial products of R103 -/

namespace Sys2Proof.Proofs

open Sys2Proof.Machine Sys2Proof.Safety

/-! ## The truncating product -/

/-- The truncating product as a number (R101, R102). -/
theorem toNat_mulTrunc {w : Nat} (a b : BitVec w) : (mulTrunc a b).toNat = a.toNat * b.toNat % 2 ^ w :=
  BitVec.toNat_ofNat _ _

/-- The truncating product is the library's product of bit vectors, so that product's laws are its own (R104). -/
theorem mulTrunc_eq_mul {w : Nat} (a b : BitVec w) : mulTrunc a b = a * b :=
  BitVec.eq_of_toNat_eq ((toNat_mulTrunc a b).trans (BitVec.toNat_mul a b).symm)

/-- The model's two's complement is the library's negation. -/
theorem negN_eq_neg {w : Nat} (v : BitVec w) : negN v = -v := (BitVec.neg_eq_not_add v).symm

/-- The low 32 bits of a register as a number (R24). -/
theorem toNat_lowHalf (v : Word64) : (lowHalf v).toNat = v.toNat % 2 ^ 32 := BitVec.toNat_setWidth 32 v

/-- Settles O37: the command's functional result is the product of the low halves, zero-extended. -/
theorem mulTrunc32Result : Obligations.MulTrunc32Result := by
  refine ⟨rfl, fun s => ⟨_, completesWith_of_execValue rfl, ?_⟩⟩
  rw [BitVec.toNat_setWidth_of_le (by decide), toNat_mulTrunc, toNat_lowHalf, toNat_lowHalf]

/-- Settles O38: the command's functional result is the product of the registers. -/
theorem mulTrunc64Result : Obligations.MulTrunc64Result :=
  ⟨rfl, fun s => ⟨_, completesWith_of_execValue rfl, toNat_mulTrunc s.opa s.opb⟩⟩

/-- Settles O39: each law is that of the product of bit vectors, at any width. -/
theorem multiplyLaws : Obligations.MultiplyLaws := by
  intro w _ a b
  simp only [mulTrunc_eq_mul]
  refine ⟨BitVec.mul_comm a b, ?_, BitVec.mul_zero, BitVec.mul_one a, ?_⟩
  · rw [BitVec.ofInt_mul, BitVec.ofInt_toInt, BitVec.ofInt_toInt]
  · rw [← BitVec.neg_one_eq_allOnes, BitVec.mul_neg, BitVec.mul_one, negN_eq_neg]

/-! ## The partial products of R103 -/

/-- Numbers that agree modulo 2^w wrap to the same `w` bits. -/
theorem ofNat_eq_of_modEq {w m n : Nat} (h : m ≡ n [MOD 2 ^ w]) : BitVec.ofNat w m = BitVec.ofNat w n :=
  BitVec.eq_of_toNat_eq (by rw [BitVec.toNat_ofNat, BitVec.toNat_ofNat]; exact h)

/-- A number's upper part, wrapped, in front of its low `k` bits is the number, wrapped. -/
theorem ofNat_div_append_ofNat (m k n : Nat) :
    BitVec.ofNat m (n / 2 ^ k) ++ BitVec.ofNat k n = BitVec.ofNat (m + k) n := by
  apply BitVec.eq_of_toNat_eq
  rw [BitVec.toNat_append, BitVec.toNat_ofNat, BitVec.toNat_ofNat, BitVec.toNat_ofNat,
    ← Nat.shiftLeft_add_eq_or_of_lt (Nat.mod_lt _ (Nat.two_pow_pos k)), Nat.shiftLeft_eq, Nat.add_comm m k, pow_add,
    Nat.mod_mul, Nat.mul_comm, Nat.add_comm]

/-- A 32-bit value is made of its two 16-bit halves (R103). -/
theorem toNat_eq_halves (a : Word32) :
    a.toNat = (a.extractLsb' 16 16).toNat * 2 ^ 16 + (a.extractLsb' 0 16).toNat := by
  rw [BitVec.extractLsb'_toNat, BitVec.extractLsb'_toNat, Nat.shiftRight_eq_div_pow, Nat.shiftRight_eq_div_pow]
  omega

/-- The product of two halved values is, modulo 2^32, its cross products in the upper half plus its low product:
the product of the upper halves lies above bit 31 (R103). -/
theorem halves_mul_modEq (al ah bl bh : Nat) :
    (ah * 2 ^ 16 + al) * (bh * 2 ^ 16 + bl) ≡ 2 ^ 16 * (al * bh + ah * bl) + al * bl [MOD 2 ^ 32] := by
  have hsplit : (ah * 2 ^ 16 + al) * (bh * 2 ^ 16 + bl) =
      2 ^ 16 * (al * bh + ah * bl) + al * bl + 2 ^ 32 * (ah * bh) := by ring
  rw [hsplit]
  exact Nat.add_mul_mod_self_left _ _ _

theorem partialProducts32_eq_mulTrunc (a b : Word32) : partialProducts32 a b = mulTrunc a b := by
  rw [mulTrunc, toNat_eq_halves a, toNat_eq_halves b, ofNat_eq_of_modEq (halves_mul_modEq _ _ _ _),
    ← ofNat_div_append_ofNat 16 16, Nat.mul_add_div (by decide),
    ofNat_eq_of_modEq (Nat.mul_add_mod (2 ^ 16) _ _)]
  rfl

/-- The low `n + 1` bytes of a register are its low `n` bytes and byte `n` above them. -/
theorem mod_pow_succ_eq_add_byteOf (v : Word64) (n : Nat) :
    v.toNat % 256 ^ (n + 1) = v.toNat % 256 ^ n + (byteOf v n).toNat * 256 ^ n := by
  rw [pow_succ, Nat.mod_mul, toNat_byteOf, Nat.mul_comm]

/-- The inner loop of the byte-wise multiplier: a byte `x` at place `i` times the low `n` bytes of `b` (R103). -/
def addByteRow (x i : Nat) (b : Word64) (n : Nat) (acc : Word64) : Word64 :=
  (List.range n).foldl (fun acc j => acc + BitVec.ofNat 64 (x * (byteOf b j).toNat * 2 ^ (8 * (i + j)))) acc

/-- The outer loop of the byte-wise multiplier, over the low `n` bytes of `a` (R103). -/
def addByteRows (a b : Word64) (n : Nat) : Word64 :=
  (List.range n).foldl (fun acc i => addByteRow (byteOf a i).toNat i b (8 - i) acc) 0

theorem byteProducts64_eq_addByteRows (a b : Word64) : byteProducts64 a b = addByteRows a b 8 := rfl

theorem addByteRow_succ (x i : Nat) (b : Word64) (n : Nat) (acc : Word64) :
    addByteRow x i b (n + 1) acc =
      addByteRow x i b n acc + BitVec.ofNat 64 (x * (byteOf b n).toNat * 2 ^ (8 * (i + n))) := by
  rw [addByteRow, List.range_succ, List.foldl_append]
  rfl

theorem addByteRows_succ (a b : Word64) (n : Nat) :
    addByteRows a b (n + 1) = addByteRow (byteOf a n).toNat n b (8 - n) (addByteRows a b n) := by
  rw [addByteRows, List.range_succ, List.foldl_append]
  rfl

/-- A row adds the product of the shifted byte and the low `n` bytes of `b`. -/
theorem addByteRow_eq (x i : Nat) (b : Word64) (n : Nat) (acc : Word64) :
    addByteRow x i b n acc = acc + BitVec.ofNat 64 (x * 256 ^ i * (b.toNat % 256 ^ n)) := by
  induction n with
  | zero => rw [pow_zero, Nat.mod_one, Nat.mul_zero]; exact (BitVec.add_zero acc).symm
  | succ n ih =>
    have hrow (d r : Nat) : x * 256 ^ i * r + x * d * 2 ^ (8 * (i + n)) = x * 256 ^ i * (r + d * 256 ^ n) := by
      rw [Nat.pow_mul, pow_add]; ring
    rw [addByteRow_succ, ih, BitVec.add_assoc, ← BitVec.ofNat_add, hrow, ← mod_pow_succ_eq_add_byteOf]

/-- Shifted to byte `i`, the bytes of `b` from `8 - i` up lie above bit 63 (R103). -/
theorem shifted_mod_modEq (x b : Nat) {i : Nat} (hi : i ≤ 8) :
    x * 256 ^ i * (b % 256 ^ (8 - i)) ≡ x * 256 ^ i * b [MOD 2 ^ 64] := by
  have hpow : 2 ^ 64 = 256 ^ i * 256 ^ (8 - i) := by rw [← pow_add, Nat.add_sub_cancel' hi]; rfl
  rw [Nat.mul_assoc, Nat.mul_assoc, hpow]
  exact ((Nat.mod_modEq b _).mul_left' _).mul_left x

/-- After `n` rows the accumulator holds the product of the low `n` bytes of `a` and all of `b`. -/
theorem addByteRows_eq (a b : Word64) {n : Nat} (hn : n ≤ 8) :
    addByteRows a b n = BitVec.ofNat 64 (a.toNat % 256 ^ n * b.toNat) := by
  induction n with
  | zero => rw [pow_zero, Nat.mod_one, Nat.zero_mul]; rfl
  | succ n ih =>
    have hn' := Nat.le_of_succ_le hn
    rw [addByteRows_succ, ih hn', addByteRow_eq, ofNat_eq_of_modEq (shifted_mod_modEq _ _ hn'), ← BitVec.ofNat_add,
      mod_pow_succ_eq_add_byteOf, Nat.add_mul]

theorem byteProducts64_eq_mulTrunc (a b : Word64) : byteProducts64 a b = mulTrunc a b := by
  have hall : a.toNat % 256 ^ 8 = a.toNat := Nat.mod_eq_of_lt a.isLt
  rw [byteProducts64_eq_addByteRows, addByteRows_eq a b le_rfl, hall, mulTrunc]

/-- Settles O40: the three 16-bit products and the 36 byte products sum to the product, less what lies above the
result's width. -/
theorem partialProductsMeetContract : Obligations.PartialProductsMeetContract :=
  ⟨partialProducts32_eq_mulTrunc, byteProducts64_eq_mulTrunc⟩

end Sys2Proof.Proofs

/-! # Proofs about the Division/Modulo Engine (42_divmod.md): results, the identity of R112, and the structures of
R111 and R121 -/

namespace Sys2Proof.Proofs

open Sys2Proof.Machine Sys2Proof.Safety

/-! ## The engine's functions are the library's divisions of bit vectors -/

theorem toNat_eq_zero_iff {w : Nat} (v : BitVec w) : v.toNat = 0 ↔ v = 0 :=
  ⟨fun h => BitVec.eq_of_toNat_eq h, fun h => congrArg BitVec.toNat h⟩

theorem toNat_pos_of_ne_zero {w : Nat} {v : BitVec w} (h : v ≠ 0) : 0 < v.toNat :=
  Nat.pos_of_ne_zero (mt (toNat_eq_zero_iff v).mp h)

theorem udivN_of_ne_zero {w : Nat} (a : BitVec w) {b : BitVec w} (hb : b ≠ 0) : udivN a b = a / b := by
  rw [udivN, if_neg hb, BitVec.udiv_def]

/-- The quotient by zero is all ones (R111). -/
theorem udivN_zero {w : Nat} (a : BitVec w) : udivN a 0 = BitVec.allOnes w := if_pos rfl

theorem umodN_of_ne_zero {w : Nat} (a : BitVec w) {b : BitVec w} (hb : b ≠ 0) : umodN a b = some (a % b) := by
  rw [umodN, if_neg hb, BitVec.umod_def]

/-- The magnitude of a value whose sign bit is clear is the value (R115). -/
theorem magN_of_msb_false {w : Nat} {v : BitVec w} (h : v.msb = false) : magN v = v := by
  rw [magN, if_neg (Bool.eq_false_iff.mp h)]

/-- The magnitude of a value whose sign bit is set is its negation (R115). -/
theorem magN_of_msb_true {w : Nat} {v : BitVec w} (h : v.msb = true) : magN v = -v := by
  rw [magN, if_pos h, negN_eq_neg]

/-- Only zero has magnitude zero (R115). -/
theorem magN_ne_zero {w : Nat} {v : BitVec w} (hv : v ≠ 0) : magN v ≠ 0 := by
  cases hsign : v.msb with
  | false => rwa [magN_of_msb_false hsign]
  | true => rw [magN_of_msb_true hsign]; exact mt BitVec.neg_eq_zero_iff.mp hv

/-- The sign rule of R116 for the quotient is that of the library's truncating division. -/
theorem sdivN_of_ne_zero {w : Nat} (a : BitVec w) {b : BitVec w} (hb : b ≠ 0) : sdivN a b = a.sdiv b := by
  rw [sdivN, udivN_of_ne_zero _ (magN_ne_zero hb), negN_eq_neg, BitVec.sdiv_eq]
  cases ha : a.msb with
  | false =>
    rw [magN_of_msb_false ha]
    cases hb' : b.msb with
    | false => rw [magN_of_msb_false hb']; rfl
    | true => rw [magN_of_msb_true hb']; rfl
  | true =>
    rw [magN_of_msb_true ha]
    cases hb' : b.msb with
    | false => rw [magN_of_msb_false hb']; rfl
    | true => rw [magN_of_msb_true hb']; rfl

/-- The signed quotient by zero is the unsigned one, all ones, negated for a negative dividend (R117, R118). -/
theorem sdivN_zero {w : Nat} (a : BitVec w) : sdivN a 0 = if a.toInt < 0 then 1 else BitVec.allOnes w := by
  have hmsb : (0 : BitVec w).msb = false := BitVec.msb_zero
  have hneg : a.msb = decide (a.toInt < 0) := BitVec.msb_eq_toInt
  rw [sdivN, magN_of_msb_false hmsb, udivN_zero, negN_eq_neg, ← BitVec.neg_one_eq_allOnes, BitVec.neg_neg, hmsb,
    Bool.xor_false, hneg]
  simp only [decide_eq_true_eq]
  rfl

/-- The sign rule of R116 for the remainder is that of the library's truncating division. -/
theorem smodN_of_ne_zero {w : Nat} (a : BitVec w) {b : BitVec w} (hb : b ≠ 0) : smodN a b = some (a.srem b) := by
  rw [smodN, umodN_of_ne_zero _ (magN_ne_zero hb), Option.map_some, negN_eq_neg, BitVec.srem_eq]
  cases ha : a.msb with
  | false =>
    rw [magN_of_msb_false ha]
    cases hb' : b.msb with
    | false => rw [magN_of_msb_false hb']; rfl
    | true => rw [magN_of_msb_true hb']; rfl
  | true =>
    rw [magN_of_msb_true ha]
    cases hb' : b.msb with
    | false => rw [magN_of_msb_false hb']; rfl
    | true => rw [magN_of_msb_true hb']; rfl

/-- The bit vector quotient is the truncated quotient of the values, wrapped. -/
theorem sdiv_eq_ofInt_tdiv {w : Nat} (a b : BitVec w) : a.sdiv b = BitVec.ofInt w (a.toInt.tdiv b.toInt) :=
  BitVec.eq_of_toInt_eq (by rw [BitVec.toInt_sdiv, BitVec.toInt_ofInt])

/-- The bit vector remainder is the remainder of truncating division of the values. -/
theorem srem_eq_ofInt_tmod {w : Nat} (a b : BitVec w) : a.srem b = BitVec.ofInt w (a.toInt.tmod b.toInt) := by
  rw [← BitVec.toInt_srem, BitVec.ofInt_toInt]

/-! ## The results of the eight commands -/

theorem mod_eq_zero_iff_lowHalf_eq_zero (v : Word64) : v.toNat % 2 ^ 32 = 0 ↔ lowHalf v = 0 := by
  rw [← toNat_lowHalf, toNat_eq_zero_iff]

/-- A 32-bit result is RES's low half (R23). -/
theorem lowHalf_setWidth (r : Word32) : lowHalf (r.setWidth 64) = r := by
  rw [lowHalf, BitVec.setWidth_setWidth_of_le _ (by decide), BitVec.setWidth_eq]

/-- A zero-extended result is the same number (R23). -/
theorem toNat_setWidth_64 (r : Word32) : (r.setWidth 64).toNat = r.toNat := BitVec.toNat_setWidth_of_le (by decide)

section Results

variable {a b : Word64}

theorem execValue_modU32 (hb : lowHalf b ≠ 0) :
    execValue .modU32 a b = some ((lowHalf a % lowHalf b).setWidth 64) :=
  congrArg zext64 (umodN_of_ne_zero _ hb)

theorem execValue_modU64 (hb : b ≠ 0) : execValue .modU64 a b = some (a % b) :=
  umodN_of_ne_zero _ hb

theorem execValue_modS32 (hb : lowHalf b ≠ 0) :
    execValue .modS32 a b = some (((lowHalf a).srem (lowHalf b)).setWidth 64) :=
  congrArg zext64 (smodN_of_ne_zero _ hb)

theorem execValue_modS64 (hb : b ≠ 0) : execValue .modS64 a b = some (a.srem b) :=
  smodN_of_ne_zero _ hb

end Results

/-- Settles O41: the quotient of the low halves, or all ones, zero-extended. -/
theorem divU32Result : Obligations.DivU32Result := by
  refine ⟨rfl, fun s => ⟨_, completesWith_of_execValue rfl, fun hb => ?_, fun hb => ?_⟩⟩
  · have hlow := mt (mod_eq_zero_iff_lowHalf_eq_zero s.opb).mpr hb
    rw [toNat_setWidth_64, udivN_of_ne_zero _ hlow, BitVec.toNat_udiv, toNat_lowHalf, toNat_lowHalf]
  · rw [(mod_eq_zero_iff_lowHalf_eq_zero _).mp hb, udivN_zero]
    rfl

/-- Settles O42: the quotient of the registers, or all ones. -/
theorem divU64Result : Obligations.DivU64Result := by
  refine ⟨rfl, fun s => ⟨_, completesWith_of_execValue rfl, fun hb => ?_, fun hb => ?_⟩⟩
  · rw [udivN_of_ne_zero _ hb, BitVec.toNat_udiv]
  · rw [hb, udivN_zero]
    rfl

/-- Settles O43: truncating division of the low halves, with the engine's value for divisor zero. -/
theorem divS32Result : Obligations.DivS32Result := by
  refine ⟨rfl, fun s => ⟨_, completesWith_of_execValue rfl, fun hb => ?_, fun hb => ?_⟩⟩
  · rw [sdivN_of_ne_zero _ hb, sdiv_eq_ofInt_tdiv]
  · rw [hb, sdivN_zero]
    rfl

/-- Settles O44: truncating division of the registers, with the engine's value for divisor zero. -/
theorem divS64Result : Obligations.DivS64Result := by
  refine ⟨rfl, fun s => ⟨_, completesWith_of_execValue rfl, fun hb => ?_, fun hb => ?_⟩⟩
  · rw [sdivN_of_ne_zero _ hb, sdiv_eq_ofInt_tdiv]
  · rw [hb, sdivN_zero]
    rfl

/-- Settles O45: the remainder of the low halves, zero-extended. -/
theorem modU32Result : Obligations.ModU32Result := by
  refine ⟨rfl, fun s hb => ?_⟩
  have hlow := mt (mod_eq_zero_iff_lowHalf_eq_zero s.opb).mpr hb
  refine ⟨_, completesWith_of_execValue (execValue_modU32 hlow), ?_⟩
  rw [toNat_setWidth_64, BitVec.toNat_umod, toNat_lowHalf, toNat_lowHalf]

/-- Settles O46: the remainder of the registers. -/
theorem modU64Result : Obligations.ModU64Result :=
  ⟨rfl, fun _ hb => ⟨_, completesWith_of_execValue (execValue_modU64 hb), BitVec.toNat_umod⟩⟩

/-- Settles O47: the remainder of truncating division of the low halves, zero-extended. -/
theorem modS32Result : Obligations.ModS32Result :=
  ⟨rfl, fun _ hb => ⟨_, completesWith_of_execValue (execValue_modS32 hb), srem_eq_ofInt_tmod _ _⟩⟩

/-- Settles O48: the remainder of truncating division of the registers. -/
theorem modS64Result : Obligations.ModS64Result :=
  ⟨rfl, fun _ hb => ⟨_, completesWith_of_execValue (execValue_modS64 hb), srem_eq_ofInt_tmod _ _⟩⟩

/-! ## The quotient/remainder identity -/

theorem unsignedIdentity_udiv_umod {w : Nat} (a : BitVec w) {b : BitVec w} (hb : b ≠ 0) :
    UnsignedIdentity a b (a / b) (a % b) := by
  rw [UnsignedIdentity, BitVec.toNat_udiv, BitVec.toNat_umod]
  exact ⟨(Nat.div_add_mod' _ _).symm, Nat.mod_lt _ (toNat_pos_of_ne_zero hb)⟩

/-- The remainder of truncating division is zero or has the dividend's sign (R112, R116). -/
theorem srem_eq_zero_or_msb_eq {w : Nat} (a b : BitVec w) : a.srem b = 0 ∨ (a.srem b).msb = a.msb := by
  have hsign := Int.sign_tmod a.toInt b.toInt
  rw [← BitVec.toInt_srem] at hsign
  split_ifs at hsign with hdvd
  · exact .inl (BitVec.eq_of_toInt_eq ((Int.sign_eq_zero_iff_zero.mp hsign).trans BitVec.toInt_zero.symm))
  · refine .inr ?_
    rw [BitVec.msb_eq_toInt, BitVec.msb_eq_toInt, decide_eq_decide, ← Int.sign_eq_neg_one_iff_neg, hsign,
      Int.sign_eq_neg_one_iff_neg]

theorem signedIdentity_sdiv_srem {w : Nat} (a : BitVec w) {b : BitVec w} (hb : b ≠ 0) :
    SignedIdentity a b (a.sdiv b) (a.srem b) := by
  have hpos : 0 < b.toInt.natAbs :=
    Int.natAbs_pos.mpr fun h => hb (BitVec.eq_of_toInt_eq (h.trans BitVec.toInt_zero.symm))
  refine ⟨fun hfits => ?_, ?_, ?_, srem_eq_zero_or_msb_eq a b⟩
  · rw [← BitVec.neg_one_eq_allOnes, Classical.not_and_iff_not_or_not] at hfits
    rw [BitVec.toInt_sdiv_of_ne_or_ne a b hfits, BitVec.toInt_srem, Int.tdiv_mul_add_tmod]
  · calc a = BitVec.ofInt w (a.toInt.tdiv b.toInt * b.toInt + a.toInt.tmod b.toInt) := by
          rw [Int.tdiv_mul_add_tmod, BitVec.ofInt_toInt]
      _ = a.sdiv b * b + a.srem b := by
          rw [BitVec.ofInt_add, BitVec.ofInt_mul, BitVec.ofInt_toInt, ← sdiv_eq_ofInt_tdiv, ← srem_eq_ofInt_tmod]
  · rw [BitVec.toInt_srem, Int.natAbs_tmod]
    exact Nat.mod_lt _ hpos

/-- Two commands with defined results, each run from the same state, leave those results in RES. -/
theorem exists_exec_pair {i j : Instr} {s : State} {q r : Word64} (hq : execValue i s.opa s.opb = some q)
    (hr : execValue j s.opa s.opb = some r) {P : Word64 → Word64 → Prop} (h : P q r) :
    ∃ tq tr, exec i s = .next tq ∧ exec j s = .next tr ∧ P tq.res tr.res :=
  ⟨_, _, exec_of_execValue i s hq, exec_of_execValue j s hr, h⟩

/-- Settles O50: the two results of each pair are the quotient and the remainder of one division. -/
theorem quotientRemainderIdentity : Obligations.QuotientRemainderIdentity := by
  refine fun s => ⟨fun hb => ⟨?_, ?_⟩, fun hb => ⟨?_, ?_⟩⟩
  · refine exists_exec_pair (P := fun q r => UnsignedIdentity _ _ (lowHalf q) (lowHalf r)) rfl (execValue_modU32 hb) ?_
    rw [lowHalf_setWidth, lowHalf_setWidth, udivN_of_ne_zero _ hb]
    exact unsignedIdentity_udiv_umod _ hb
  · refine exists_exec_pair (P := fun q r => SignedIdentity _ _ (lowHalf q) (lowHalf r)) rfl (execValue_modS32 hb) ?_
    rw [lowHalf_setWidth, lowHalf_setWidth, sdivN_of_ne_zero _ hb]
    exact signedIdentity_sdiv_srem _ hb
  · refine exists_exec_pair (P := UnsignedIdentity _ _) rfl (execValue_modU64 hb) ?_
    rw [udivN_of_ne_zero _ hb]
    exact unsignedIdentity_udiv_umod _ hb
  · refine exists_exec_pair (P := SignedIdentity _ _) rfl (execValue_modS64 hb) ?_
    rw [sdivN_of_ne_zero _ hb]
    exact signedIdentity_sdiv_srem _ hb

/-! ## Restoring division (R111) -/

/-- The number made of the top `k` bits of `a`: the dividend bits that the first `k` steps shift out (R111). -/
def leadingBits {w : Nat} (a : BitVec w) (k : Nat) : Nat := a.toNat / 2 ^ (w - k)

/-- The `k` quotient bits after `k` steps, when the bits shifted out are `x`; all ones for divisor zero. -/
def restoringQuotient (k b x : Nat) : Nat := if b = 0 then 2 ^ k - 1 else x / b

theorem leadingBits_self {w : Nat} (a : BitVec w) : leadingBits a w = a.toNat := by
  rw [leadingBits, Nat.sub_self, Nat.pow_zero, Nat.div_one]

theorem leadingBits_lt {w : Nat} (a : BitVec w) {k : Nat} (hk : k ≤ w) : leadingBits a k < 2 ^ k := by
  refine Nat.div_lt_of_lt_mul ?_
  rw [← Nat.pow_add, Nat.sub_add_cancel hk]
  exact a.isLt

theorem leadingBits_succ {w : Nat} (a : BitVec w) {k : Nat} (hk : k < w) :
    leadingBits a (k + 1) = 2 * leadingBits a k + leadingBits a (k + 1) % 2 := by
  have hhalf : leadingBits a k = leadingBits a (k + 1) / 2 := by
    rw [leadingBits, leadingBits, Nat.div_div_eq_div_mul, ← Nat.pow_succ]
    congr 2
    omega
  rw [hhalf, Nat.div_add_mod]

theorem restoringQuotient_lt {k b x : Nat} (hx : x < 2 ^ k) : restoringQuotient k b x < 2 ^ k := by
  unfold restoringQuotient
  split_ifs
  · exact Nat.sub_lt (Nat.two_pow_pos k) Nat.one_pos
  · exact Nat.lt_of_le_of_lt (Nat.div_le_self x b) hx

/-- Where the divisor fits, a step appends quotient bit 1 and subtracts. -/
theorem restoring_fits {b x bit : Nat} (hbit : bit < 2) (k : Nat) (h : b ≤ 2 * (x % b) + bit) :
    restoringQuotient (k + 1) b (2 * x + bit) = 2 * restoringQuotient k b x + 1 ∧
      (2 * x + bit) % b = 2 * (x % b) + bit - b := by
  rcases Nat.eq_zero_or_pos b with rfl | hb
  · have hpow := Nat.two_pow_pos k
    simp only [restoringQuotient, if_pos, Nat.mod_zero, Nat.pow_succ]
    omega
  · have hx := Nat.div_add_mod x b
    have hlt := Nat.mod_lt x hb
    rw [restoringQuotient, restoringQuotient, if_neg hb.ne', if_neg hb.ne', Nat.div_mod_unique hb, Nat.mul_add,
      Nat.mul_left_comm]
    omega

/-- Where the divisor does not fit, a step appends quotient bit 0. -/
theorem restoring_not_fits {b x bit : Nat} (k : Nat) (h : ¬ b ≤ 2 * (x % b) + bit) :
    restoringQuotient (k + 1) b (2 * x + bit) = 2 * restoringQuotient k b x ∧
      (2 * x + bit) % b = 2 * (x % b) + bit := by
  have hb : 0 < b := by omega
  have hx := Nat.div_add_mod x b
  rw [restoringQuotient, restoringQuotient, if_neg hb.ne', if_neg hb.ne', Nat.div_mod_unique hb, Nat.mul_left_comm]
  omega

/-- The register shifted left. -/
theorem ofNat_shiftLeft_one (w n : Nat) : BitVec.ofNat w n <<< 1 = BitVec.ofNat w (2 * n) := by
  apply BitVec.eq_of_toNat_eq
  rw [BitVec.toNat_shiftLeft, BitVec.toNat_ofNat, BitVec.toNat_ofNat, Nat.shiftLeft_eq, Nat.mod_mul_mod, Nat.mul_comm]

/-- The register shifted left, its vacated bit set. -/
theorem ofNat_shiftLeft_one_or_one (w n : Nat) : BitVec.ofNat w n <<< 1 ||| 1 = BitVec.ofNat w (2 * n + 1) := by
  have hor : 2 * n + 1 = 2 * n ||| 1 := Nat.two_pow_add_eq_or_of_lt (i := 1) (by decide) n
  rw [ofNat_shiftLeft_one, hor, BitVec.ofNat_or]
  rfl

/-- The bit a register shifts out. -/
theorem toNat_msb_ofNat {w : Nat} (hw : 0 < w) (n : Nat) : (BitVec.ofNat w n).msb.toNat = n / 2 ^ (w - 1) % 2 := by
  rw [BitVec.msb_eq_getLsbD_last, BitVec.getLsbD_ofNat, decide_eq_true (Nat.sub_lt hw Nat.one_pos), Bool.true_and,
    Nat.toNat_testBit]

/-- The dividend/quotient register and the remainder after `k` steps of restoring division. -/
def restoringState {w : Nat} (a b : BitVec w) (k : Nat) : BitVec w × Nat :=
  (BitVec.ofNat w (a.toNat * 2 ^ k + restoringQuotient k b.toNat (leadingBits a k)), leadingBits a k % b.toNat)

/-- Before the first step the register holds the dividend and the remainder is 0. -/
theorem restoringState_zero {w : Nat} (a b : BitVec w) : restoringState a b 0 = (a, 0) := by
  have hlead : leadingBits a 0 = 0 := Nat.lt_one_iff.mp (leadingBits_lt a (Nat.zero_le w))
  have hq : restoringQuotient 0 b.toNat 0 = 0 := Nat.lt_one_iff.mp (restoringQuotient_lt (k := 0) Nat.one_pos)
  rw [restoringState, hlead, hq, Nat.zero_mod, Nat.pow_zero, Nat.mul_one, Nat.add_zero, BitVec.ofNat_toNat,
    BitVec.setWidth_eq]

/-- Step `k` shifts out bit `k` of the dividend, counted from the top. -/
theorem toNat_msb_restoringState {w : Nat} (a b : BitVec w) {k : Nat} (hk : k < w) :
    (restoringState a b k).1.msb.toNat = leadingBits a (k + 1) % 2 := by
  have hq := restoringQuotient_lt (b := b.toNat) (leadingBits_lt a hk.le)
  have hexp : w - 1 = k + (w - (k + 1)) := by omega
  rw [restoringState, toNat_msb_ofNat (by omega), hexp, Nat.pow_add, ← Nat.div_div_eq_div_mul, Nat.mul_comm a.toNat,
    Nat.mul_add_div (Nat.two_pow_pos k), Nat.div_eq_of_lt hq, Nat.add_zero, leadingBits]

theorem restoringStep_restoringState {w : Nat} (a b : BitVec w) {k : Nat} (hk : k < w) :
    restoringStep b (restoringState a b k) = restoringState a b (k + 1) := by
  have hbit : leadingBits a (k + 1) % 2 < 2 := Nat.mod_lt _ (by decide)
  have hshift (q : Nat) : 2 * (a.toNat * 2 ^ k + q) = a.toNat * 2 ^ (k + 1) + 2 * q := by ring
  have hlead := leadingBits_succ a hk
  rw [restoringStep, toNat_msb_restoringState a b hk, restoringState, restoringState]
  generalize leadingBits a (k + 1) % 2 = bit at hbit hlead ⊢
  rw [hlead]
  dsimp only
  split_ifs with h
  · obtain ⟨hq, hr⟩ := restoring_fits hbit k h
    rw [ofNat_shiftLeft_one_or_one, hshift, hq, hr, Nat.add_assoc]
  · obtain ⟨hq, hr⟩ := restoring_not_fits k h
    rw [ofNat_shiftLeft_one, hshift, hq, hr]

theorem repeat_restoringStep {w : Nat} (a b : BitVec w) {k : Nat} (hk : k ≤ w) :
    Nat.repeat (restoringStep b) k (a, 0) = restoringState a b k := by
  induction k with
  | zero => rw [restoringState_zero]; rfl
  | succ k ih => rw [Nat.repeat, ih (Nat.le_of_succ_le hk), restoringStep_restoringState a b hk]

/-- After the last step only quotient bits are left in the register, and they are the quotient of R113 and R114. -/
theorem ofNat_restoringQuotient {w : Nat} (a b : BitVec w) :
    BitVec.ofNat w (a.toNat * 2 ^ w + restoringQuotient w b.toNat a.toNat) = udivN a b := by
  have hwrap : a.toNat * 2 ^ w + restoringQuotient w b.toNat a.toNat ≡ restoringQuotient w b.toNat a.toNat
      [MOD 2 ^ w] := Nat.mul_add_mod' _ _ _
  have hones : BitVec.ofNat w (2 ^ w - 1) = BitVec.allOnes w := BitVec.eq_of_toNat_eq <| by
    rw [BitVec.toNat_ofNat, BitVec.toNat_allOnes, Nat.mod_eq_of_lt (Nat.sub_lt (Nat.two_pow_pos w) Nat.one_pos)]
  rw [ofNat_eq_of_modEq hwrap, restoringQuotient, udivN, apply_ite (BitVec.ofNat w), hones]
  exact if_congr (toNat_eq_zero_iff b) rfl rfl

/-- Settles O51: each step appends one quotient bit and keeps the remainder of the bits shifted out so far. -/
theorem restoringDivisionMeetsContract : Obligations.RestoringDivisionMeetsContract := by
  intro w a b
  have hrun : restoringDivide a b = restoringState a b w := repeat_restoringStep a b le_rfl
  rw [hrun, restoringState, leadingBits_self]
  exact ⟨ofNat_restoringQuotient a b, fun _ => rfl⟩

/-! ## The remainder by normalised subtraction (R121) -/

/-- The alignment shifts the divisor some `k` times: after any shift the divisor is at most the dividend, and unless
the fuel ran out the next shift would bring it above. -/
theorem alignDivisor_spec (a fuel b count : Nat) :
    ∃ k ≤ fuel, alignDivisor a fuel b count = (2 ^ k * b, count + k) ∧
      (2 ^ k * b ≤ a ∨ k = 0) ∧ (a < 2 * (2 ^ k * b) ∨ k = fuel) := by
  induction fuel generalizing b count with
  | zero => exact ⟨0, le_rfl, by simp [alignDivisor], .inr rfl, .inr rfl⟩
  | succ fuel ih =>
    rw [alignDivisor]
    split_ifs with h
    · obtain ⟨k, hk, heq, hle, hlt⟩ := ih (2 * b) (count + 1)
      have hpow : 2 ^ k * (2 * b) = 2 ^ (k + 1) * b := by ring
      rw [hpow] at heq hle hlt
      refine ⟨k + 1, Nat.succ_le_succ hk, ?_, .inl ?_, hlt.imp_right (congrArg (· + 1))⟩
      · rw [heq, Nat.add_right_comm, Nat.add_assoc]
      · rcases hle with hle | rfl
        · exact hle
        · simpa using h
    · exact ⟨0, Nat.zero_le _, by simp, .inr rfl, .inl (by simpa using h)⟩

/-- The subtraction of `b` shifted left by `n-1` places down to 0, each where it fits, leaves the remainder of any
dividend below `b` shifted left by `n`. -/
theorem subtractAndHalve_eq_mod (b n : Nat) {a : Nat} (h : a < 2 ^ n * b) :
    subtractAndHalve n a (2 ^ n * b / 2) = a % b := by
  induction n generalizing a with
  | zero => rw [subtractAndHalve, Nat.mod_eq_of_lt (by simpa using h)]
  | succ n ih =>
    have hhalf : 2 ^ (n + 1) * b / 2 = 2 ^ n * b := by
      rw [Nat.pow_succ, Nat.mul_right_comm, Nat.mul_div_cancel _ (by decide)]
    rw [Nat.pow_succ, Nat.mul_right_comm] at h
    rw [hhalf, subtractAndHalve]
    split_ifs with hle
    · rw [ih (by omega), Nat.mul_comm, Nat.sub_mul_mod (by rwa [Nat.mul_comm])]
    · exact ih (by omega)

/-- Settles O52: the alignment ends with the dividend below twice the divisor, so one subtraction at each halving
leaves the remainder. -/
theorem normalisedModuloMeetsContract : Obligations.NormalisedModuloMeetsContract := by
  intro a b hb
  have hpos := toNat_pos_of_ne_zero hb
  obtain ⟨k, hk, heq, hle, hlt⟩ := alignDivisor_spec a.toNat 63 b.toNat 0
  have hbelow : a.toNat < 2 * (2 ^ k * b.toNat) := by
    rcases hlt with hlt | rfl
    · exact hlt
    · have := a.isLt
      omega
  rw [normalisedMod, heq, Nat.zero_add]
  refine ⟨?_, hk, hle.imp_left (⟨·, hbelow⟩)⟩
  have hdouble : 2 ^ (k + 1) * b.toNat = 2 * (2 ^ k * b.toNat) := by ring
  have hmod := subtractAndHalve_eq_mod b.toNat (k + 1) (hbelow.trans_eq hdouble.symm)
  rwa [hdouble, Nat.mul_div_cancel_left _ (by decide)] at hmod

end Sys2Proof.Proofs

/-! # Proofs about the Float Division Engine (43_fdiv.md): fields, the mantissa quotient, and the results of R142 -/

namespace Sys2Proof.Proofs

open Sys2Proof.Machine Sys2Proof.Safety

/-! ## Fields and classes of a float32 (R140, R141) -/

section Fields

variable (s : BitVec 1) (e : BitVec 8) (f : BitVec 23)

@[simp] theorem floatSign_floatPack : floatSign (floatPack s e f) = s := by
  rw [floatSign, floatPack, BitVec.extractLsb'_append_eq_of_le (by decide)]
  exact BitVec.extractLsb'_append_eq_left

@[simp] theorem floatExp_floatPack : floatExp (floatPack s e f) = e := by
  rw [floatExp, floatPack, BitVec.extractLsb'_append_eq_of_le (by decide)]
  exact BitVec.extractLsb'_append_eq_right

@[simp] theorem floatFrac_floatPack : floatFrac (floatPack s e f) = f :=
  BitVec.extractLsb'_append_eq_right

end Fields

theorem floatSign_eq_ofBool (v : Word32) : floatSign v = BitVec.ofBool (v.getLsbD 31) := by
  apply BitVec.eq_of_getLsbD_eq
  simp [floatSign]

theorem floatInf_ofBool (p : Bool) : floatInf (BitVec.ofBool p) = if p then 0xFF800000 else 0x7F800000 := by
  cases p <;> rfl

theorem isNormal_iff (v : Word32) : isNormal v = true ↔ 1 ≤ (floatExp v).toNat ∧ (floatExp v).toNat ≤ 254 := by
  rw [isNormal, Bool.and_eq_true, bne_iff_ne, bne_iff_ne]
  bv_omega

theorem isDenormal_of_isNormal {v : Word32} (h : isNormal v = true) : isDenormal v = false := by
  obtain ⟨hzero, -⟩ := Bool.and_eq_true_iff.mp h
  rw [isDenormal, beq_false_of_ne (bne_iff_ne.mp hzero), Bool.false_and]

theorem isNaN_of_isNormal {v : Word32} (h : isNormal v = true) : isNaN v = false := by
  obtain ⟨-, hones⟩ := Bool.and_eq_true_iff.mp h
  rw [isNaN, beq_false_of_ne (bne_iff_ne.mp hones), Bool.false_and]

theorem isDenormal_of_isNaN {v : Word32} (h : isNaN v = true) : isDenormal v = false := by
  obtain ⟨hones, -⟩ := Bool.and_eq_true_iff.mp h
  rw [isDenormal, eq_of_beq hones]
  rfl

/-- `FDIV_NAN` is a NaN, whatever its open pattern is (R143). -/
theorem isNaN_fdivNan : isNaN fdivNan = true := by
  have hfrac : BitVec.ofNat 23 (Config.fdivNanPayload.val + 1) ≠ 0 := fun h => by
    have hnat := congrArg BitVec.toNat h
    rw [BitVec.toNat_ofNat, Nat.mod_eq_of_lt (Nat.succ_lt_succ Config.fdivNanPayload.isLt)] at hnat
    exact absurd hnat (Nat.succ_ne_zero _)
  rw [isNaN, fdivNan, floatExp_floatPack, floatFrac_floatPack, bne_iff_ne.mpr hfrac]
  rfl

theorem floatMant_ge (v : Word32) : 0x800000 ≤ floatMant v := Nat.le_add_right _ _

theorem floatMant_pos (v : Word32) : 0 < floatMant v := Nat.lt_of_lt_of_le (by decide) (floatMant_ge v)

theorem floatMant_le (v : Word32) : floatMant v ≤ 0xFFFFFF := by
  have := (floatFrac v).isLt
  rw [floatMant]
  omega

theorem floatMant_of_frac_zero {v : Word32} (h : floatFrac v = 0) : floatMant v = 0x800000 := by
  rw [floatMant, h]
  rfl

/-- A 24-bit quotient with its top bit set is the mantissa of the pattern its low 23 bits are packed in (R150). -/
theorem floatMant_floatPack_ofNat (s : BitVec 1) (e : BitVec 8) {q : Nat} (hlow : 0x800000 ≤ q)
    (hhigh : q ≤ 0xFFFFFF) : floatMant (floatPack s e (BitVec.ofNat 23 q)) = q := by
  rw [floatMant, floatFrac_floatPack, BitVec.toNat_ofNat]
  omega

/-! ## The mantissa loop is a division (R147) -/

/-- With the quotient bits so far above the mask, `k` passes append the `k` bits of the quotient by twice the divisor
and leave the remainder. -/
theorem fdivLoop_eq (mb k c : Nat) {ma : Nat} (h : ma < 2 * mb) :
    fdivLoop mb k ma (2 ^ k * c) = (2 ^ k * ma % (2 * mb), 2 ^ k * c + 2 ^ k * ma / (2 * mb)) := by
  induction k generalizing ma c with
  | zero => simp [fdivLoop, Nat.mod_eq_of_lt h, Nat.div_eq_of_lt h]
  | succ k ih =>
    rw [fdivLoop]
    split_ifs with hle
    · have hmask : 2 ^ (k + 1) * c ||| 2 ^ k = 2 ^ k * (2 * c + 1) := by
        rw [← Nat.two_pow_add_eq_or_of_lt (Nat.pow_lt_pow_succ (by decide)), Nat.pow_succ]
        ring
      have hma : 2 ^ (k + 1) * ma = 2 ^ k * (2 * (ma - mb)) + 2 ^ k * (2 * mb) := by
        rw [← Nat.mul_add, ← Nat.mul_add, Nat.sub_add_cancel hle, ← Nat.mul_assoc, Nat.pow_succ]
      rw [hmask, Nat.shiftLeft_eq, Nat.mul_comm (ma - mb), Nat.pow_one, ih _ (by omega), hma,
        Nat.add_mul_mod_self_right, Nat.add_mul_div_right _ _ (by omega), Nat.pow_succ]
      congr 1
      ring
    · have hdouble (x : Nat) : 2 ^ (k + 1) * x = 2 ^ k * (2 * x) := by rw [← Nat.mul_assoc, Nat.pow_succ]
      rw [hdouble c, hdouble ma, Nat.shiftLeft_eq, Nat.mul_comm ma, Nat.pow_one, ih _ (by omega)]

section Quotient

variable (a b : Word32)

theorem floatMant_lt_two_mul : floatMant a < 2 * floatMant b := by
  have := floatMant_le a
  have := floatMant_ge b
  omega

theorem two_pow_fdivPasses_mul : 2 ^ fdivPasses a b * floatMant a = 2 * scaledDividend a b := by
  rw [fdivPasses, scaledDividend]
  split_ifs <;> ring

/-- Step 7 divides the scaled dividend mantissa by the divisor mantissa (R145, R147). -/
theorem fdivLoop_mantissas :
    fdivLoop (floatMant b) (fdivPasses a b) (floatMant a) 0 =
      (2 * (scaledDividend a b % floatMant b), scaledDividend a b / floatMant b) := by
  have h := fdivLoop_eq (floatMant b) (fdivPasses a b) 0 (floatMant_lt_two_mul a b)
  rwa [Nat.mul_zero, Nat.zero_add, two_pow_fdivPasses_mul, Nat.mul_mod_mul_left,
    Nat.mul_div_mul_left _ _ (by decide)] at h

/-- The scaling brings the quotient to 24 bits, the top one set, with room for rounding (R145, R148). -/
theorem scaledDividend_bounds :
    0x800000 * floatMant b ≤ scaledDividend a b ∧
      2 * scaledDividend a b + floatMant b < 0x2000000 * floatMant b := by
  have hage := floatMant_ge a
  have hale := floatMant_le a
  have hbge := floatMant_ge b
  have hble := floatMant_le b
  rw [scaledDividend]
  split_ifs <;> omega

/-- Step 8 rounds the exact quotient to the nearest integer (R149). -/
theorem fdivQuotient_bounds :
    2 * (fdivQuotient a b * floatMant b) ≤ 2 * scaledDividend a b + floatMant b ∧
      2 * scaledDividend a b < 2 * (fdivQuotient a b * floatMant b) + floatMant b := by
  have hpos := floatMant_pos b
  have hdiv := Nat.div_add_mod' (scaledDividend a b) (floatMant b)
  have hlt := Nat.mod_lt (scaledDividend a b) hpos
  rw [fdivQuotient, fdivLoop_mantissas]
  dsimp only
  split_ifs
  · rw [Nat.add_one_mul (scaledDividend a b / floatMant b)]
    omega
  · omega

/-- Half an odd number of divisor mantissas is no scaled dividend: the divisor mantissa has at most 24 bits, so it
does not take up the 24 or 25 factors 2 of twice the scaled dividend (R149). -/
theorem two_mul_scaledDividend_ne_odd_mul (n : Nat) : 2 * scaledDividend a b ≠ (2 * n + 1) * floatMant b := by
  intro h
  have hpow : 2 ^ 24 ∣ 2 * scaledDividend a b := by
    rw [← two_pow_fdivPasses_mul]
    refine Dvd.dvd.mul_right (Nat.pow_dvd_pow 2 ?_) _
    rw [fdivPasses]
    split_ifs <;> decide
  have hcop : Nat.Coprime (2 ^ 24) (2 * n + 1) := (Nat.coprime_two_left.mpr (odd_two_mul_add_one n)).pow_left 24
  have hle : 2 ^ 24 ≤ floatMant b :=
    Nat.le_of_dvd (floatMant_pos b) (hcop.dvd_of_dvd_mul_left (h ▸ hpow))
  exact absurd (hle.trans (floatMant_le b)) (by decide)

theorem scaledDividend_div_range :
    0x800000 ≤ scaledDividend a b / floatMant b ∧ scaledDividend a b / floatMant b ≤ 0xFFFFFF := by
  have hpos := floatMant_pos b
  obtain ⟨hlow, hhigh⟩ := scaledDividend_bounds a b
  exact ⟨(Nat.le_div_iff_mul_le hpos).mpr hlow, Nat.le_of_lt_succ ((Nat.div_lt_iff_lt_mul hpos).mpr (by omega))⟩

theorem fdivQuotient_ge : 0x800000 ≤ fdivQuotient a b := by
  have hlow := (scaledDividend_bounds a b).1
  have hround := (fdivQuotient_bounds a b).2
  have hlt : 0x800000 * floatMant b < (fdivQuotient a b + 1) * floatMant b := by
    rw [Nat.add_one_mul (fdivQuotient a b)]
    omega
  exact Nat.le_of_lt_succ (Nat.lt_of_mul_lt_mul_right hlt)

theorem fdivQuotient_le : fdivQuotient a b ≤ 0xFFFFFF := by
  have hhigh := (scaledDividend_bounds a b).2
  have hround := (fdivQuotient_bounds a b).1
  have hlt : fdivQuotient a b * floatMant b < 0x1000000 * floatMant b := by omega
  exact Nat.le_of_lt_succ (Nat.lt_of_mul_lt_mul_right hlt)

/-- The rounded quotient is strictly nearest to the exact one. -/
theorem fdivQuotient_nearest :
    2 * (fdivQuotient a b * floatMant b) < 2 * scaledDividend a b + floatMant b ∧
      2 * scaledDividend a b < 2 * (fdivQuotient a b * floatMant b) + floatMant b := by
  obtain ⟨hle, hlt⟩ := fdivQuotient_bounds a b
  refine ⟨Nat.lt_of_le_of_ne hle fun htie => ?_, hlt⟩
  obtain ⟨n, hn⟩ := Nat.exists_eq_add_one.mpr (Nat.lt_of_lt_of_le (by decide) (fdivQuotient_ge a b))
  refine two_mul_scaledDividend_ne_odd_mul a b n ?_
  rw [hn] at htie
  have hodd : 2 * ((n + 1) * floatMant b) = (2 * n + 1) * floatMant b + floatMant b := by ring
  omega

end Quotient

/-- Settles O56: the loop's quotient is the scaled dividend mantissa by the divisor mantissa. -/
theorem fdivQuotientRange : Obligations.FdivQuotientRange := by
  intro a b
  obtain ⟨hlow, hhigh⟩ := scaledDividend_div_range a b
  rw [fdivLoop_mantissas]
  exact ⟨hlow, hhigh, fdivQuotient_le a b⟩

/-- Equal mantissas have quotient 1, as a mantissa 0x800000. -/
theorem fdivQuotient_of_eq {a b : Word32} (h : floatMant a = floatMant b) : fdivQuotient a b = 0x800000 := by
  have hpos := floatMant_pos b
  have hscaled : scaledDividend a b = floatMant b * 2 ^ 23 := by
    rw [scaledDividend, h, if_neg (Nat.lt_irrefl _)]
  rw [fdivQuotient, fdivLoop_mantissas, hscaled, Nat.mul_mod_right, Nat.mul_div_cancel_left _ hpos]
  exact if_neg (Nat.not_le_of_lt hpos)

/-! ## The paths of R142 -/

section Paths

variable {a b : Word32}

theorem fdivPrecheck_eq_fdivNan (h : floatExp a = 0 ∨ isNaN a = true) : fdivPrecheck a = fdivNan := by
  unfold fdivPrecheck
  split_ifs with hexp hnan
  · rfl
  · rfl
  · exact absurd h (not_or.mpr ⟨hexp, hnan⟩)
  · exact absurd h (not_or.mpr ⟨hexp, hnan⟩)

theorem fdivPrecheck_eq_floatInf (h : ¬ (floatExp a = 0 ∨ isNaN a = true)) :
    fdivPrecheck a = floatInf (floatSign a) := by
  obtain ⟨hexp, hnan⟩ := not_or.mp h
  rw [fdivPrecheck, if_neg hexp, if_neg hnan, floatSign_eq_ofBool]
  cases a.getLsbD 31 <;> rfl

theorem fdiv32_of_divisor_exp_zero (hb : floatExp b = 0) : fdiv32 a b = fdivPrecheck a := if_pos hb

theorem fdiv32_of_dividend_exp_zero (hb : floatExp b ≠ 0) (ha : floatExp a = 0) : fdiv32 a b = plusZero := by
  rw [fdiv32, if_neg hb, if_pos ha]

theorem fdiv32_underflow (hb : floatExp b ≠ 0) (ha : floatExp a ≠ 0) (he : fdivExponent a b < 1) :
    fdiv32 a b = plusZero := by
  rw [fdiv32, if_neg hb, if_neg ha]
  exact if_pos he

theorem fdiv32_overflow (hb : floatExp b ≠ 0) (ha : floatExp a ≠ 0) (he : 255 ≤ fdivExponent a b) :
    fdiv32 a b = floatInf (floatSign a ^^^ floatSign b) := by
  have hlow : ¬ fdivExponent a b < fdivEMin := by
    rw [fdivEMin]
    omega
  rw [fdiv32, if_neg hb, if_neg ha]
  exact (if_neg hlow).trans (if_pos he)

theorem fdiv32_normal (hb : floatExp b ≠ 0) (ha : floatExp a ≠ 0) (hlow : 1 ≤ fdivExponent a b)
    (hhigh : fdivExponent a b ≤ 254) :
    fdiv32 a b = floatPack (floatSign a ^^^ floatSign b) (BitVec.ofInt 8 (fdivExponent a b))
      (BitVec.ofNat 23 (fdivQuotient a b)) := by
  have hmin : ¬ fdivExponent a b < fdivEMin := Int.not_lt.mpr hlow
  have hmax : ¬ fdivEMax ≤ fdivExponent a b := by
    rw [fdivEMax]
    omega
  rw [fdiv32, if_neg hb, if_neg ha]
  exact (if_neg hmin).trans (if_neg hmax)

theorem fdivExponent_eq (a b : Word32) :
    fdivExponent a b = ((floatExp a).toNat : Int) - (floatExp b).toNat +
      (if floatMant a < floatMant b then 126 else 127) := by
  rw [fdivExponent, fdivBiasAdj]
  split_ifs <;> ring

/-- A result exponent of 1 to 254 is the exponent field it is packed in (R150). -/
theorem toNat_ofInt_exponent {e : Int} (hlow : 1 ≤ e) (hhigh : e ≤ 254) : ((BitVec.ofInt 8 e).toNat : Int) = e := by
  rw [BitVec.toNat_ofInt]
  omega

theorem isNormal_fdiv32 (hb : floatExp b ≠ 0) (ha : floatExp a ≠ 0) (hlow : 1 ≤ fdivExponent a b)
    (hhigh : fdivExponent a b ≤ 254) : isNormal (fdiv32 a b) = true := by
  have he := toNat_ofInt_exponent hlow hhigh
  rw [isNormal_iff, fdiv32_normal hb ha hlow hhigh, floatExp_floatPack]
  omega

/-- What fdiv32 can return (R142, R152): `FDIV_NAN` from the pre-check, and otherwise an infinity, +0.0 or a normal. -/
theorem fdiv32_cases (a b : Word32) :
    ((floatExp b = 0 ∧ (floatExp a = 0 ∨ isNaN a = true)) ∧ fdiv32 a b = fdivNan) ∨
    (¬ (floatExp b = 0 ∧ (floatExp a = 0 ∨ isNaN a = true)) ∧
      ((∃ s, fdiv32 a b = floatInf s) ∨ fdiv32 a b = plusZero ∨ isNormal (fdiv32 a b) = true)) := by
  by_cases hb : floatExp b = 0
  · rw [fdiv32_of_divisor_exp_zero hb]
    by_cases ha : floatExp a = 0 ∨ isNaN a = true
    · exact .inl ⟨⟨hb, ha⟩, fdivPrecheck_eq_fdivNan ha⟩
    · exact .inr ⟨fun h => ha h.2, .inl ⟨_, fdivPrecheck_eq_floatInf ha⟩⟩
  · refine .inr ⟨fun h => hb h.1, ?_⟩
    by_cases ha : floatExp a = 0
    · exact .inr (.inl (fdiv32_of_dividend_exp_zero hb ha))
    · by_cases hlow : fdivExponent a b < 1
      · exact .inr (.inl (fdiv32_underflow hb ha hlow))
      · by_cases hhigh : 255 ≤ fdivExponent a b
        · exact .inl ⟨_, fdiv32_overflow hb ha hhigh⟩
        · exact .inr (.inr (isNormal_fdiv32 hb ha (by omega) (by omega)))

end Paths

/-! ## The results of the command -/

/-- fdiv32 completes with the zero-extended result of `Exec` (R142). -/
theorem completesWith_fdiv32 (s : State) :
    CompletesWith .fdiv32 s ((fdiv32 (lowHalf s.opa) (lowHalf s.opb)).setWidth 64) :=
  completesWith_of_execValue rfl

/-- Settles O53: the command takes the pre-check's path. -/
theorem fdivPrecheckResult : Obligations.FdivPrecheckResult := by
  intro s hb
  refine ⟨_, completesWith_fdiv32 s, fun ha => ?_, fun ⟨hexp, hnan⟩ => ?_⟩
  · have hr := (fdiv32_of_divisor_exp_zero hb).trans (fdivPrecheck_eq_fdivNan ha)
    exact ⟨hr, hr ▸ isNaN_fdivNan⟩
  · have ha : ¬ (floatExp (lowHalf s.opa) = 0 ∨ isNaN (lowHalf s.opa) = true) :=
      not_or.mpr ⟨hexp, Bool.eq_false_iff.mp hnan⟩
    rw [fdiv32_of_divisor_exp_zero hb, fdivPrecheck_eq_floatInf ha, floatSign_eq_ofBool, floatInf_ofBool]

/-- Settles O54: each premise selects one path of the engine. -/
theorem fdivFlushAndOverflow : Obligations.FdivFlushAndOverflow := by
  intro s hb
  refine ⟨_, completesWith_fdiv32 s, fun ha => ?_, fun ⟨ha, he⟩ => ?_, fun ⟨ha, he⟩ => ?_⟩
  · exact fdiv32_of_dividend_exp_zero hb ha
  · exact fdiv32_underflow hb ha he
  · rw [fdiv32_overflow hb ha he, floatSign_eq_ofBool, floatSign_eq_ofBool, BitVec.ofBool_xor_ofBool, floatInf_ofBool]

/-- Settles O55: the packed mantissa is the rounded quotient, and a divisor mantissa of 24 bits leaves no tie. -/
theorem fdivCorrectlyRounded : Obligations.FdivCorrectlyRounded := by
  intro s e ha hb he hlow hhigh
  rw [← fdivExponent_eq] at he
  subst he
  refine ⟨_, completesWith_fdiv32 s, ?_⟩
  rw [fdiv32_normal hb ha hlow hhigh, floatMant_floatPack_ofNat _ _ (fdivQuotient_ge _ _) (fdivQuotient_le _ _)]
  exact ⟨floatSign_floatPack .., by rw [floatExp_floatPack, toNat_ofInt_exponent hlow hhigh], fdivQuotient_nearest _ _⟩

/-- Settles O58: powers of two have equal mantissas. -/
theorem fdivPowersOfTwo : Obligations.FdivPowersOfTwo := by
  intro s ha hb hfa hfb hlow hhigh
  have hmant : floatMant (lowHalf s.opa) = floatMant (lowHalf s.opb) :=
    (floatMant_of_frac_zero hfa).trans (floatMant_of_frac_zero hfb).symm
  have he := fdivExponent_eq (lowHalf s.opa) (lowHalf s.opb)
  rw [hmant, if_neg (Nat.lt_irrefl _)] at he
  rw [← he] at hlow hhigh ⊢
  refine ⟨_, completesWith_fdiv32 s, ?_⟩
  rw [fdiv32_normal hb ha hlow hhigh, fdivQuotient_of_eq hmant, floatExp_floatPack]
  exact ⟨floatFrac_floatPack .., toNat_ofInt_exponent hlow hhigh, floatSign_floatPack ..⟩

/-! ## The classes of the result (R152) -/

/-- Outside the pre-check's NaN the result is no denormal, not -0.0 and no NaN. -/
theorem classes_of_inf_or_zero_or_normal {v : Word32}
    (h : (∃ s, v = floatInf s) ∨ v = plusZero ∨ isNormal v = true) :
    isDenormal v = false ∧ v ≠ 0x80000000 ∧ isNaN v = false := by
  rcases h with ⟨s, rfl⟩ | rfl | hnormal
  · revert s
    decide
  · decide
  · refine ⟨isDenormal_of_isNormal hnormal, ?_, isNaN_of_isNormal hnormal⟩
    rintro rfl
    exact absurd hnormal (by decide)

/-- Settles O57: by the classes of the engine's four kinds of result. -/
theorem fdivResultClasses : Obligations.FdivResultClasses := by
  intro s t hexec
  obtain ⟨t', hexec', hres, -⟩ := completesWith_fdiv32 s
  obtain rfl := Host.Outcome.next.inj (hexec'.symm.trans hexec)
  rw [hres, lowHalf_setWidth]
  rcases fdiv32_cases (lowHalf s.opa) (lowHalf s.opb) with ⟨hpre, hr⟩ | ⟨hpre, hr⟩
  · rw [hr]
    refine ⟨isDenormal_of_isNaN isNaN_fdivNan, ?_, iff_of_true isNaN_fdivNan hpre⟩
    intro hzero
    have hnan := isNaN_fdivNan
    rw [hzero] at hnan
    exact absurd hnan (by decide)
  · obtain ⟨hden, hzero, hnan⟩ := classes_of_inf_or_zero_or_normal hr
    exact ⟨hden, hzero, iff_of_false (Bool.eq_false_iff.mp hnan) hpre⟩

end Sys2Proof.Proofs

/-! # Proofs about exceptions (60_exceptions.md): no step stops the machine -/

namespace Sys2Proof.Proofs

open Sys2Proof.Machine Sys2Proof.Safety

/-- No step raises a fault (R160), since every step answers a next state. -/
theorem step_ne_fault (s : State) (f : Fault) : step s ≠ .fault f := by
  obtain ⟨t, ht, -⟩ := step_next s
  rw [ht]
  exact nofun

/-- Settles O6: the model steps on from every state, so it answers a next state also where R190 supports no claim. -/
theorem everyStepAnswersNext : Obligations.EveryStepAnswersNext := by
  refine ⟨step_ne_fault, fun s _ => ?_⟩
  obtain ⟨t, ht, -⟩ := step_next s
  exact ⟨t, ht⟩

end Sys2Proof.Proofs

/-! # Proofs about what a command or a reset leaves unspecified (10_state.md section 8, 42_divmod.md section 6) -/

namespace Sys2Proof.Proofs

open Sys2Proof.Machine Sys2Proof.Safety

/-! ## Which bytes of RES hold a value -/

/-- All bytes of RES hold a value after a command, or none does (R33, log entry 9). -/
theorem resHeld_of_exec {i : Instr} {s t : State} (h : exec i s = .next t) :
    t.resHeld = if resultDefined i s && operandsHeld (operandUse i) s then 0xFF else 0x00 := by
  rw [exec_eq_complete] at h
  injection h with h
  rw [← h, State.complete_resHeld, resultDefined]

/-- Settles O25: the condition under which the command marks RES holds in the first case and fails in the second. -/
theorem resHeldAfterCommand : Obligations.ResHeldAfterCommand := by
  intro i s t hexec
  rw [resHeld_of_exec hexec]
  refine ⟨fun ⟨hheld, hdef⟩ => ?_, fun h => ?_⟩
  · rw [hheld, hdef]
    rfl
  · obtain hheld | hdef := h
    · rw [hheld, Bool.and_false]
      rfl
    · rw [hdef, Bool.false_and]
      rfl

/-! ## The unwritten operands after a reset -/

/-- The platform's reset gives every byte, written or not, its reset contents (R180). -/
theorem unwrittenOperandsAsReset_resetCore (s : State) : UnwrittenOperandsAsReset s.resetCore :=
  fun off _ _ => memRead8_resetCore off s

/-- Settles O10: `State.reset` is what the invariant compares with, and the platform's reset restores it. -/
theorem unwrittenOperandsAtReset : Obligations.UnwrittenOperandsAtReset :=
  ⟨fun _ _ _ => rfl, fun s rest => ⟨_, step_reset s rest, unwrittenOperandsAsReset_resetCore s, rfl⟩⟩

/-! ## Modulo by zero -/

/-- The unsigned remainder by zero is not defined (R124). -/
theorem umodN_zero {w : Nat} (a : BitVec w) : umodN a 0 = none := if_pos rfl

/-- The signed remainder by zero is not defined, since the magnitude of zero is zero (R115, R124). -/
theorem smodN_zero {w : Nat} (a : BitVec w) : smodN a 0 = none := by
  have hmag : magN (0 : BitVec w) = 0 := magN_of_msb_false BitVec.msb_zero
  rw [smodN, hmag, umodN_zero, Option.map_none]

/-- A 32-bit remainder by zero leaves all 64 bits of RES undefined (R23, R124). -/
theorem zext64_none : zext64 none = none := rfl

section ZeroDivisor

variable {a b : Word64}

theorem execValue_modU32_of_zero (hb : lowHalf b = 0) : execValue .modU32 a b = none := by
  rw [execValue, hb, umodN_zero, zext64_none]

theorem execValue_modS32_of_zero (hb : lowHalf b = 0) : execValue .modS32 a b = none := by
  rw [execValue, hb, smodN_zero, zext64_none]

theorem execValue_modU64_of_zero (hb : b = 0) : execValue .modU64 a b = none := by
  rw [execValue, hb, umodN_zero]

theorem execValue_modS64_of_zero (hb : b = 0) : execValue .modS64 a b = none := by
  rw [execValue, hb, smodN_zero]

end ZeroDivisor

/-- Settles O49: none of the four remainders is defined for a divisor of zero. -/
theorem moduloByZeroUnspecified : Obligations.ModuloByZeroUnspecified :=
  fun _ =>
    ⟨fun hlow => ⟨completesUnspecified_of_execValue (execValue_modU32_of_zero hlow),
        completesUnspecified_of_execValue (execValue_modS32_of_zero hlow)⟩,
      fun hzero => ⟨completesUnspecified_of_execValue (execValue_modU64_of_zero hzero),
        completesUnspecified_of_execValue (execValue_modS64_of_zero hzero)⟩⟩

end Sys2Proof.Proofs
